-- ==== Sys2Proof/Word.lean ====
section
/-! DEFINITION. The word types of CHAINMUX (rule R8) and the shape of a memory: a list of (key, byte) pairs. -/

namespace Sys2Proof

/-- A byte: bits 7 (most significant) down to 0 (R8). -/
abbrev Byte := BitVec 8

/-- A symbol code (R56). -/
abbrev Nibble := BitVec 4

/-- A packet `PKT16` (R51): the address byte in bits 15..8, the data byte in bits 7..0. -/
abbrev Packet := BitVec 16

/-- A command word `CMD32` (R63). It is a value on a parallel port and has no byte order. -/
abbrev CmdWord := BitVec 32

/-- Sparse bytes by key, keys strictly rising (`Memory.wf`). The chips' registers and shift registers are kept so;
a key that is not listed holds no known value. -/
abbrev Memory := List Host.Cell

end Sys2Proof
end

