-- ==== Sys2Proof/Syntax.lean ====
section
/-! DEFINITION. The whole syntax: register names, operands, and `Instr` with one constructor for each of the 30 rows of
spec/opcode_table.json (16 host commands, 14 wire packets). Operands are those of the abstract command level, which R5
makes normative. -/

namespace Sys2Proof

/-- The 14 register names of a chip (R52); `digit n` is the name `Digit{n}` (R89). -/
inductive RegName where
  | noOp
  | digit (n : Fin 8)
  | decodeMode
  | intensity
  | scanLimit
  | shutdown
  | displayTest
deriving DecidableEq, Repr

/-- The register operand of `writeRegister` (R68, R80): one of the 14 names, or a name that is none of them. In a `CMD32`
word an unknown register is an address byte no name has (R64f), so an unknown register carries such a byte; nothing the
block does depends on which. -/
inductive RegOperand where
  | known (r : RegName)
  | unknown (code : Byte)
deriving DecidableEq, Repr

/-- The instructions. Integers are unbounded and may be negative (R9); a bit sequence may have any length and a symbol may
be any string (R68, R70, R73): the checks are the commands' own. -/
inductive Instr where
  /-- `WRREG`, `writeRegister(register, value)` (R77). -/
  | wrreg (reg : RegOperand) (value : Byte)
  /-- `WRREGT`, `writeRegister(register, value, targetChip)` (R78). -/
  | wrregt (reg : RegOperand) (value : Byte) (target : Int)
  /-- `STARTUP`, `startup()` (R81). -/
  | startup
  /-- `SHUTDOWN`, `shutdown()` (R82). -/
  | shutdown
  /-- `TESTON`, `startDisplayTest()` (R83). -/
  | teston
  /-- `TESTOFF`, `stopDisplayTest()` (R84). -/
  | testoff
  /-- `SETDEC`, `setDecodeMode(modes)` (R85). -/
  | setdec (modes : List Bool)
  /-- `DECNONE`, `setDecodeNone()` (R86). -/
  | decnone
  /-- `DECALL`, `setDecodeAll()` (R87). -/
  | decall
  /-- `SETSEG`, `setDigitSegments(n, segs)` (R90). -/
  | setseg (n : Int) (segs : List Bool)
  /-- `SETSEGB`, `setDigitSegmentsByte(n, byte)` (R91). -/
  | setsegb (n : Int) (byte : Byte)
  /-- `SETSYM`, `setDigitSymbol(n, sym, dp)` (R92). -/
  | setsym (n : Int) (sym : List Char) (dp : Bool)
  /-- `CLEAR`, `clearDisplay()` (R93). -/
  | clear
  /-- `SETINT`, `setDisplayIntensity(v)` (R94). -/
  | setint (v : Int)
  /-- `SETSCAN`, `setScanLimit(n)` (R95). -/
  | setscan (n : Int)
  /-- `SETACT`, `setActiveController(i)` (R96). -/
  | setact (i : Int)
  /-- The wire packets (R51, R52): what a chip does when it latches one is R39. -/
  | pktNoOp (data : Byte)
  | pktDigit0 (data : Byte)
  | pktDigit1 (data : Byte)
  | pktDigit2 (data : Byte)
  | pktDigit3 (data : Byte)
  | pktDigit4 (data : Byte)
  | pktDigit5 (data : Byte)
  | pktDigit6 (data : Byte)
  | pktDigit7 (data : Byte)
  | pktDecodeMode (data : Byte)
  | pktIntensity (data : Byte)
  | pktScanLimit (data : Byte)
  | pktShutdown (data : Byte)
  | pktDisplayTest (data : Byte)
deriving DecidableEq, Repr

/-- The 16 opcodes of `CMD32` (R65), without operands. -/
inductive CmdOp where
  | wrreg | wrregt | startup | shutdown | teston | testoff | setdec | decnone | decall
  | setseg | setsegb | setsym | clear | setint | setscan | setact
deriving DecidableEq, Repr

/-- A bit-level instruction: a command word (R63) or a wire packet (R51). Both lengths are fixed (R49). -/
inductive CodeWord where
  | cmd (w : CmdWord)
  | pkt (w : Packet)
deriving DecidableEq, Repr

/-- Is the instruction a wire packet, executed by a chip, and not a command of the host? -/
def Instr.isPacket : Instr → Bool
  | .pktNoOp _ | .pktDigit0 _ | .pktDigit1 _ | .pktDigit2 _ | .pktDigit3 _ | .pktDigit4 _ | .pktDigit5 _
  | .pktDigit6 _ | .pktDigit7 _ | .pktDecodeMode _ | .pktIntensity _ | .pktScanLimit _ | .pktShutdown _
  | .pktDisplayTest _ => true
  | .wrreg .. | .wrregt .. | .startup | .shutdown | .teston | .testoff | .setdec _ | .decnone | .decall
  | .setseg .. | .setsegb .. | .setsym .. | .clear | .setint _ | .setscan _ | .setact _ => false

end Sys2Proof
end

