-- ==== Sys2Proof/Machine/Tables.lean ====
section
/-! DEFINITION. The constant tables: register addresses (R52), symbol codes (R56), opcode numbers (R65), and the bit order
of a packed sequence (R70). They stand under Machine/ so that a later repair can mend a number. -/

namespace Sys2Proof

/-- `REGADDR` (R52). Only `NoOp = 0x00` is the source's; the other numbers are the spec's general knowledge (PRESUMED,
assumption log 4). -/
def regAddr : RegName → Byte
  | .noOp => 0x00
  | .digit n => BitVec.ofNat 8 (n.val + 1)
  | .decodeMode => 0x09
  | .intensity => 0x0A
  | .scanLimit => 0x0B
  | .shutdown => 0x0C
  | .displayTest => 0x0F

/-- The 14 names, in the order of R52's table. -/
def allRegs : List RegName :=
  [.noOp, .digit 0, .digit 1, .digit 2, .digit 3, .digit 4, .digit 5, .digit 6, .digit 7,
   .decodeMode, .intensity, .scanLimit, .shutdown, .displayTest]

/-- The name that has an address byte, if any (R64f, R80). -/
def regOf (a : Byte) : Option RegName := allRegs.find? fun r => regAddr r == a

/-- The symbol table (R56). `'H'` and `' '` are the source's; the other codes are the spec's general knowledge (PRESUMED,
assumption log 5). -/
def symTable : List (Char × Nibble) :=
  [('0', 0x0), ('1', 0x1), ('2', 0x2), ('3', 0x3), ('4', 0x4), ('5', 0x5), ('6', 0x6), ('7', 0x7), ('8', 0x8),
   ('9', 0x9), ('-', 0xA), ('E', 0xB), ('H', 0xC), ('L', 0xD), ('P', 0xE), (' ', 0xF)]

/-- `SYMCODE` (R56): defined on exactly the 16 characters of the table. -/
def symCode (c : Char) : Option Nibble := symTable.lookup c

/-- The opcode numbers (R65). -/
def opcode : CmdOp → Byte
  | .wrreg => 0x01
  | .wrregt => 0x02
  | .startup => 0x10
  | .shutdown => 0x11
  | .teston => 0x12
  | .testoff => 0x13
  | .setdec => 0x20
  | .decnone => 0x21
  | .decall => 0x22
  | .setseg => 0x30
  | .setsegb => 0x31
  | .setsym => 0x32
  | .clear => 0x33
  | .setint => 0x40
  | .setscan => 0x41
  | .setact => 0x42

/-- The 16 opcodes in the order of R65's table. -/
def allOps : List CmdOp :=
  [.wrreg, .wrregt, .startup, .shutdown, .teston, .testoff, .setdec, .decnone, .decall, .setseg, .setsegb, .setsym,
   .clear, .setint, .setscan, .setact]

/-- The opcode an `OP` field selects, if it is assigned (R65, R66). -/
def opOf (b : Byte) : Option CmdOp := allOps.find? fun o => opcode o == b

/-- The packing sum of R70: element `i` weighs `2^i`. -/
def packNat : List Bool → Nat
  | [] => 0
  | b :: bs => b.toNat + 2 * packNat bs

/-- The byte whose bit `i` is element `i` (R70). -/
def byteOfBits (bits : List Bool) : Byte := BitVec.ofNat 8 (packNat bits)

/-- The eight bits of a byte, element `i` being bit `i` (R71). -/
def bitsOfByte (b : Byte) : List Bool :=
  [b.getLsbD 0, b.getLsbD 1, b.getLsbD 2, b.getLsbD 3, b.getLsbD 4, b.getLsbD 5, b.getLsbD 6, b.getLsbD 7]

end Sys2Proof
end

