-- ==== Sys2Proof/WellFormed.lean ====
section
/-! DEFINITION. Which instructions have a bit-level form: R64 says which operands a `CMD32` word can express. An abstract
command that fails a check here still has a meaning (R5); it has no word. -/

namespace Sys2Proof

/-- R64a: an integer operand is an 8-bit field, zero extended. -/
def fitsField (n : Int) : Bool := decide (0 ≤ n ∧ n ≤ 255)

/-- R64c: a bit sequence is one 8-bit field, so its length is 8. -/
def fitsBits (bits : List Bool) : Bool := bits.length == 8

/-- R64d: a character operand is one character with an 8-bit code. -/
def fitsSymbol : List Char → Bool
  | [c] => decide (c.toNat < 256)
  | _ => false

/-- R64f: a register is unknown exactly when no name has its address byte. -/
def RegOperand.wf : RegOperand → Bool
  | .known _ => true
  | .unknown a => (regOf a).isNone

/-- The instructions that have a bit-level form. -/
def Instr.wf : Instr → Bool
  | .wrreg r _ => r.wf
  | .wrregt r _ k => r.wf && fitsField k
  | .setdec modes => fitsBits modes
  | .setseg n segs => fitsField n && fitsBits segs
  | .setsegb n _ => fitsField n
  | .setsym n sym _ => fitsField n && fitsSymbol sym
  | .setint v => fitsField v
  | .setscan n => fitsField n
  | .setact i => fitsField i
  | .startup | .shutdown | .teston | .testoff | .decnone | .decall | .clear => true
  | .pktNoOp _ | .pktDigit0 _ | .pktDigit1 _ | .pktDigit2 _ | .pktDigit3 _ | .pktDigit4 _ | .pktDigit5 _
  | .pktDigit6 _ | .pktDigit7 _ | .pktDecodeMode _ | .pktIntensity _ | .pktScanLimit _ | .pktShutdown _
  | .pktDisplayTest _ => true

end Sys2Proof
end

