-- ==== Sys2Proof/Decode.lean ====
section
/-! DEFINITION. The decoder, total on every word and rejecting by name (R65, R66, R52, R53), and after it the encoder. -/

namespace Sys2Proof

/-- Why a word is no instruction. -/
inductive DecodeError where
  /-- The `OP` field is assigned to no row (R66). -/
  | unassignedOpcode
  /-- An assigned `OP`, but a field that must be zero is not (R66). -/
  | reservedFieldNonZero
  /-- A packet whose address byte has no register name (R53). -/
  | unnamedAddress
deriving DecidableEq, Repr

/-! The fields of a command word (R63). -/

def opField (w : CmdWord) : Byte := w.extractLsb' 24 8
def aField (w : CmdWord) : Byte := w.extractLsb' 16 8
def bField (w : CmdWord) : Byte := w.extractLsb' 8 8
def cField (w : CmdWord) : Byte := w.extractLsb' 0 8

/-- The fields of a packet (R51). -/
def addrField (w : Packet) : Byte := w.extractLsb' 8 8
def dataField (w : Packet) : Byte := w.extractLsb' 0 8

/-- R64a: an integer operand is the field, zero extended. -/
def intOperand (f : Byte) : Int := f.toNat

/-- R64d: a character operand is the character whose code is the field. Of a code `0x80` or above the spec says only that
the character is outside the table (DESIGN CHOICE, assumption log 16). -/
def symOperand (f : Byte) : List Char := [Char.ofNat f.toNat]

/-- R64f: a register operand is the name with that address byte, or unknown. -/
def regOperand (f : Byte) : RegOperand :=
  match regOf f with
  | some r => .known r
  | none => .unknown f

/-- A row of R65 is matched only if its must-be-zero bits are zero. -/
def ifReservedZero (reserved : Bool) (i : Instr) : Except DecodeError Instr :=
  if reserved then .ok i else .error .reservedFieldNonZero

/-- The row an assigned opcode selects, given the other three fields (R64, R65). -/
def decodeRow (o : CmdOp) (a b c : Byte) : Except DecodeError Instr :=
  match o with
  | .wrreg => ifReservedZero (c == 0) (.wrreg (regOperand a) b)
  | .wrregt => .ok (.wrregt (regOperand a) b (intOperand c))
  | .startup => ifReservedZero (a == 0 && b == 0 && c == 0) .startup
  | .shutdown => ifReservedZero (a == 0 && b == 0 && c == 0) .shutdown
  | .teston => ifReservedZero (a == 0 && b == 0 && c == 0) .teston
  | .testoff => ifReservedZero (a == 0 && b == 0 && c == 0) .testoff
  | .setdec => ifReservedZero (a == 0 && c == 0) (.setdec (bitsOfByte b))
  | .decnone => ifReservedZero (a == 0 && b == 0 && c == 0) .decnone
  | .decall => ifReservedZero (a == 0 && b == 0 && c == 0) .decall
  | .setseg => ifReservedZero (c == 0) (.setseg (intOperand a) (bitsOfByte b))
  | .setsegb => ifReservedZero (c == 0) (.setsegb (intOperand a) b)
  | .setsym => ifReservedZero (c &&& 0xFE == 0) (.setsym (intOperand a) (symOperand b) (c.getLsbD 0))
  | .clear => ifReservedZero (a == 0 && b == 0 && c == 0) .clear
  | .setint => ifReservedZero (b == 0 && c == 0) (.setint (intOperand a))
  | .setscan => ifReservedZero (b == 0 && c == 0) (.setscan (intOperand a))
  | .setact => ifReservedZero (b == 0 && c == 0) (.setact (intOperand a))

/-- Decode a command word (R65, R66). -/
def decodeCmd (w : CmdWord) : Except DecodeError Instr :=
  match opOf (opField w) with
  | some o => decodeRow o (aField w) (bField w) (cField w)
  | none => .error .unassignedOpcode

/-- The packet instruction of a register name (R52). -/
def packetInstr (r : RegName) (d : Byte) : Instr :=
  match r with
  | .noOp => .pktNoOp d
  | .digit 0 => .pktDigit0 d
  | .digit 1 => .pktDigit1 d
  | .digit 2 => .pktDigit2 d
  | .digit 3 => .pktDigit3 d
  | .digit 4 => .pktDigit4 d
  | .digit 5 => .pktDigit5 d
  | .digit 6 => .pktDigit6 d
  | .digit 7 => .pktDigit7 d
  | .decodeMode => .pktDecodeMode d
  | .intensity => .pktIntensity d
  | .scanLimit => .pktScanLimit d
  | .shutdown => .pktShutdown d
  | .displayTest => .pktDisplayTest d

/-- Decode a wire packet (R51, R52, R53). -/
def decodePkt (w : Packet) : Except DecodeError Instr :=
  match regOf (addrField w) with
  | some r => .ok (packetInstr r (dataField w))
  | none => .error .unnamedAddress

/-- The decoder. -/
def decode : CodeWord → Except DecodeError Instr
  | .cmd w => decodeCmd w
  | .pkt w => decodePkt w

/-- The instruction the decoder reads from a row's word: the rows of the opcode table have 32 bits (`CMD32`) or 16
(`PKT16`). -/
def decodeTableWord (nbits w : Nat) : Option Instr :=
  if nbits ≤ 16 then (decodePkt (BitVec.ofNat 16 w)).toOption else (decodeCmd (BitVec.ofNat 32 w)).toOption

/-! The encoder, from the same tables of the spec. -/

/-- A command word from its four fields (R63). -/
def cmdWord (op a b c : Byte) : CmdWord := op ++ a ++ b ++ c

/-- A packet from its two fields (R51). -/
def pktWord (a d : Byte) : Packet := a ++ d

/-- The field of an integer operand (R64a). -/
def intField (n : Int) : Byte := BitVec.ofNat 8 n.toNat

/-- The field of a character operand (R64d). -/
def symField : List Char → Byte
  | [c] => BitVec.ofNat 8 c.toNat
  | _ => 0

/-- The field of a register operand (R64f). -/
def regField : RegOperand → Byte
  | .known r => regAddr r
  | .unknown a => a

/-- The field of the decimal-point flag: `C[0]`, the other bits zero (R65). -/
def dpField (dp : Bool) : Byte := if dp then 1 else 0

/-- The word of a well-formed instruction (R51, R52, R65). -/
def encode : Instr → CodeWord
  | .wrreg r v => .cmd (cmdWord (opcode .wrreg) (regField r) v 0)
  | .wrregt r v k => .cmd (cmdWord (opcode .wrregt) (regField r) v (intField k))
  | .startup => .cmd (cmdWord (opcode .startup) 0 0 0)
  | .shutdown => .cmd (cmdWord (opcode .shutdown) 0 0 0)
  | .teston => .cmd (cmdWord (opcode .teston) 0 0 0)
  | .testoff => .cmd (cmdWord (opcode .testoff) 0 0 0)
  | .setdec modes => .cmd (cmdWord (opcode .setdec) 0 (byteOfBits modes) 0)
  | .decnone => .cmd (cmdWord (opcode .decnone) 0 0 0)
  | .decall => .cmd (cmdWord (opcode .decall) 0 0 0)
  | .setseg n segs => .cmd (cmdWord (opcode .setseg) (intField n) (byteOfBits segs) 0)
  | .setsegb n b => .cmd (cmdWord (opcode .setsegb) (intField n) b 0)
  | .setsym n sym dp => .cmd (cmdWord (opcode .setsym) (intField n) (symField sym) (dpField dp))
  | .clear => .cmd (cmdWord (opcode .clear) 0 0 0)
  | .setint v => .cmd (cmdWord (opcode .setint) (intField v) 0 0)
  | .setscan n => .cmd (cmdWord (opcode .setscan) (intField n) 0 0)
  | .setact i => .cmd (cmdWord (opcode .setact) (intField i) 0 0)
  | .pktNoOp d => .pkt (pktWord (regAddr .noOp) d)
  | .pktDigit0 d => .pkt (pktWord (regAddr (.digit 0)) d)
  | .pktDigit1 d => .pkt (pktWord (regAddr (.digit 1)) d)
  | .pktDigit2 d => .pkt (pktWord (regAddr (.digit 2)) d)
  | .pktDigit3 d => .pkt (pktWord (regAddr (.digit 3)) d)
  | .pktDigit4 d => .pkt (pktWord (regAddr (.digit 4)) d)
  | .pktDigit5 d => .pkt (pktWord (regAddr (.digit 5)) d)
  | .pktDigit6 d => .pkt (pktWord (regAddr (.digit 6)) d)
  | .pktDigit7 d => .pkt (pktWord (regAddr (.digit 7)) d)
  | .pktDecodeMode d => .pkt (pktWord (regAddr .decodeMode) d)
  | .pktIntensity d => .pkt (pktWord (regAddr .intensity) d)
  | .pktScanLimit d => .pkt (pktWord (regAddr .scanLimit) d)
  | .pktShutdown d => .pkt (pktWord (regAddr .shutdown) d)
  | .pktDisplayTest d => .pkt (pktWord (regAddr .displayTest) d)

end Sys2Proof
end

