-- ==== Sys2Proof/Machine/Memory.lean ====
section
/-! DEFINITION. Sparse memories: keys strictly rising, so that equal memories are equal lists. An unlisted key holds no
known value, and no listed byte is "no known value", so rising keys are the whole canonical form. -/

namespace Sys2Proof

/-- The byte at a key, if one is known. -/
def Memory.read (m : Memory) (key : Nat) : Option Byte := List.lookup key m

/-- Write one byte, keeping the keys strictly rising. -/
def Memory.write (m : Memory) (key : Nat) (d : Byte) : Memory :=
  match m with
  | [] => [(key, d)]
  | (k, b) :: rest =>
    if key < k then (key, d) :: (k, b) :: rest
    else if key = k then (key, d) :: rest
    else (k, b) :: Memory.write rest key d

/-- The memory that holds the bytes of a list at the keys `start`, `start + 1`, … and nothing else. -/
def Memory.ofBytes (start : Nat) : List Byte → Memory
  | [] => []
  | b :: bs => (start, b) :: Memory.ofBytes (start + 1) bs

/-- The canonical form: keys strictly rising. -/
def Memory.wf : Memory → Bool
  | [] => true
  | [_] => true
  | (k, _) :: (k', b') :: rest => decide (k < k') && Memory.wf ((k', b') :: rest)

end Sys2Proof
end

