-- ==== Sys2Proof/Config.lean ====
section
/-! DEFINITION. What is fixed for one instance (rule R6), and the free values: constants with no body, which nothing in
Lean can evaluate, for what the spec leaves to the environment. -/

namespace Sys2Proof

/-- The construction parameters (R6, R115). No command changes them (R13). They are data, so that a claim can speak of
every chip count; R118 makes `1 ≤ chips` a premise of every claim. -/
structure Params where
  /-- `CHIPS`: the total chip count. -/
  chips : Nat
  /-- `DEV`: the device handle, opaque; no rule reads it (R15). -/
  dev : Nat
deriving DecidableEq, Repr

/-- `CHIPS` when the constructor is given none (R14). -/
def Config.defaultChips : Nat := 1

/-- What the transport answers to one `Transmit` call (R42). -/
inductive Answer where
  | success
  | transportError
deriving DecidableEq, Repr, Inhabited

/-- FREE VALUE. The answer to the `n`-th `Transmit` call of an instance (from 0), where `State.answers` does not hold it
already: the environment's choice (R42, D24). DESIGN CHOICE of the form, assumption log 6. -/
opaque Config.freeAnswer : Nat → Answer

/-- FREE VALUE. What register `a` of chip `k` holds in epoch `e` while no transaction has written it: unspecified after
reset (R117) and after a failed transmit (R43). DESIGN CHOICE of the form, assumption log 7. -/
opaque Config.freeChipReg : (e k : Nat) → (a : Byte) → Byte

/-- FREE VALUE. What byte `j` of the chips' shift registers holds in epoch `e` while no transaction has filled it (R26b).
DESIGN CHOICE of the form, assumption log 8. -/
opaque Config.freeShift : (e j : Nat) → Byte

/-- FREE VALUE. The bits shifted out by the `n`-th `Transmit` call of an instance (from 0), of the bytes `buf`, when the
transport fails it: R43 leaves open how much of it was sent and what arrived. DESIGN CHOICE of the form, assumption log
18. -/
opaque Config.freeFailedBits : (n : Nat) → (buf : List Byte) → List Bool

end Sys2Proof
end

