-- ==== Sys2Proof/Machine/State.lean ====
section
/-! DEFINITION. The state, plain data: the block's own state (R13), the construction parameters (R6), the chain (R39,
R26b), the other agents' pending choices (R7, R12), and the observation (R12, R113). -/

namespace Sys2Proof.Machine

/-- The error kinds (R97). -/
inductive ErrorKind where
  | invalidArgument
  | outOfRange
  | transportError
deriving DecidableEq, Repr

/-- The outcome of a command (R97). -/
inductive Response where
  | ok
  | error (e : ErrorKind)
deriving DecidableEq, Repr

/-- The decode-mode record of one chip (R19): `valid` is `DECV[k]`; bit `n` of `modes` is `DEC[k][n]` (R20). -/
structure DecodeRecord where
  valid : Bool
  modes : Byte
deriving DecidableEq, Repr

/-- The chips of the chain (environment state, R39, R26b). An unlisted key holds a free value of the current epoch; a
failed transmit starts a new epoch (R43). -/
structure Chain where
  /-- `CHIPREG[k][a]`, by `chipKey k a`. -/
  regs : Memory
  /-- The chips' shift registers: keys `2k` and `2k + 1` are the two bytes chip index `k` holds. -/
  shift : Memory
  /-- The model's own counter: which of the free values are meant (assumption log 7). -/
  epoch : Nat
deriving DecidableEq, Repr

/-- What can start a step. -/
inductive Input where
  /-- The host presents a command word (R63). -/
  | cmd (w : CmdWord)
  /-- The host presents a command at the abstract level (R5, R68; assumption log 13). -/
  | call (i : Instr)
  /-- A packet that is not this instance's is latched by a chip: another master writes the chain (R123; DESIGN CHOICE,
  assumption log 10). -/
  | latch (chip : Nat) (w : Packet)
deriving DecidableEq, Repr

/-- What can be observed of a run (R12): a transaction handed to the transport with its answer, and a response. -/
inductive Event where
  | transaction (bytes : List Byte) (answer : Answer)
  | response (r : Response)
deriving DecidableEq, Repr

/-- The machine. -/
structure State where
  /-- `CHIPS` and `DEV` (R6); no command changes them (assumption log 1). -/
  params : Params
  /-- `ACTIVE` (R16). -/
  active : Nat
  /-- `TXBUF` (R17). -/
  txbuf : List Byte
  /-- `DECV[k]`, `DEC[k]` for `k = 0 .. CHIPS-1` (R19). -/
  records : List DecodeRecord
  /-- The chips (R39). -/
  chain : Chain
  /-- The model's own: the inputs still to come, oldest first (R12, R44; assumption log 9). -/
  inputs : List Input
  /-- The model's own: the transport's answers already chosen, next first (R42); past their end an answer is free
  (assumption log 6). -/
  answers : List Answer
  /-- The model's own: how many `Transmit` calls were made, the index of the free answers. -/
  txCount : Nat
  /-- The model's own: which chip latches the packet a step executes (assumption log 10). -/
  latchChip : Nat
  /-- The model's own: the observation, oldest first (assumption log 11). No command reads it (R24). -/
  history : List Event
deriving DecidableEq, Repr

/-- Why the machine stops with a fault. -/
inductive Fault where
  /-- A packet is to be latched by a chip index the chain does not have (R14, R39). Raised by the packet instructions.
  Safe: the model stops where no hardware exists. -/
  | noSuchChip
deriving DecidableEq, Repr

/-- Why a step has no meaning. -/
inductive Refusal where
  /-- An instruction without a meaning in this model; raised by an arm of `exec` alone. Safe: nothing is claimed. -/
  | notModelled (mnemonic : String)
  /-- The host has no further command; R12 gives no step then. Raised by the step. Safe: nothing is claimed. -/
  | noCommand
  /-- A wire packet from outside whose address byte names no register (R53, U6). Raised by the step. Safe: nothing is
  claimed. -/
  | unnamedPacketAddress
  /-- A wire packet presented where the host presents a command: it is no operation of R68. Raised by the step. Safe:
  nothing is claimed. -/
  | packetIsNoCommand
  /-- A command word where the chain has more chips than an 8-bit field can number: R6 and D6 limit the binary command
  level to 256 chips. Raised by the step (DESIGN CHOICE of the form, assumption log 17). Safe: nothing is claimed. -/
  | tooManyChipsForWords
deriving DecidableEq, Repr

/-- Construction with a chip count and a device handle (R27, R115): `ACTIVE = 0`, `TXBUF` all zero, every record unset,
nothing transmitted (R116), nothing known of the chips (R117). `DEC` while unset is the model's `0x00` (assumption log
3). -/
def State.construct (chips dev : Nat) : State :=
  { params := { chips := chips, dev := dev }
    active := 0
    txbuf := List.replicate (2 * chips) 0
    records := List.replicate chips { valid := false, modes := 0 }
    chain := { regs := [], shift := [], epoch := 0 }
    inputs := []
    answers := []
    txCount := 0
    latchChip := 0
    history := [] }

/-- Construction as the spec has it: with no chip there is no instance (R6, R118). -/
def State.construct? (chips dev : Nat) : Option State :=
  if 1 ≤ chips then some (State.construct chips dev) else none

/-- The machine right after reset, with the chip count the constructor takes by default (R14, R27). The device handle 0 is
a DESIGN CHOICE (assumption log 2); no rule reads it. -/
def State.reset : State := State.construct Config.defaultChips 0

end Sys2Proof.Machine
end

