-- ==== Sys2Proof/Machine/Operands.lean ====
section
/-! DEFINITION. The operand checks and the bit/byte codec (R70 to R74, R80, R89). Each answers the operand in the form the
command needs, or the error kind the command ends with. They read no state but the chip count they are given. -/

namespace Sys2Proof.Machine

/-- `encodeSegments(bits)` (R70): element `i` to bit `i`; a length other than 8 is `InvalidArgument`. -/
def encodeSegments (bits : List Bool) : Except ErrorKind Byte :=
  if bits.length = 8 then .ok (byteOfBits bits) else .error .invalidArgument

/-- `decodeSegments(b)` (R71): element `i` is bit `i`. -/
def decodeSegments (b : Byte) : List Bool := bitsOfByte b

/-- `SYMCODE` of a symbol operand: only a string of one character can be in the table (R73, corner cases). -/
def symbolCode : List Char → Option Nibble
  | [c] => symCode c
  | _ => none

/-- A symbol byte (R55): the decimal point in bit 7, zeros, the code in the low nibble. -/
def symbolByte (code : Nibble) (dp : Bool) : Byte := (BitVec.ofBool dp ++ (0 : BitVec 3)) ++ code

/-- `encodeSymbol(symbol, decimalPoint)` (R73): a symbol without a code is `InvalidArgument`. -/
def encodeSymbol (sym : List Char) (dp : Bool) : Except ErrorKind Byte :=
  match symbolCode sym with
  | some code => .ok (symbolByte code dp)
  | none => .error .invalidArgument

/-- Register-name lookup (R80): an unknown register is `InvalidArgument`. -/
def lookupRegister : RegOperand → Except ErrorKind RegName
  | .known r => .ok r
  | .unknown _ => .error .invalidArgument

/-- `DIGIT(n)` (R89): a digit number outside `0 .. 7` is `OutOfRange`. -/
def digitOperand (n : Int) : Except ErrorKind RegName :=
  if 0 ≤ n ∧ n ≤ 7 then .ok (.digit (Fin.ofNat 8 n.toNat)) else .error .outOfRange

/-- A chip index (R76 step 1, R96): outside `0 .. CHIPS-1` is `OutOfRange`. -/
def chipOperand (chips : Nat) (k : Int) : Except ErrorKind Nat :=
  if 0 ≤ k ∧ k < chips then .ok k.toNat else .error .outOfRange

/-- A brightness step (R94): outside `0 .. 15` is `OutOfRange`; the data byte is the step itself (R58). -/
def intensityOperand (v : Int) : Except ErrorKind Byte :=
  if 0 ≤ v ∧ v ≤ 15 then .ok (BitVec.ofNat 8 v.toNat) else .error .outOfRange

/-- A scan limit (R95): outside `1 .. 8` is `OutOfRange`; the data byte is one less (R59). -/
def scanLimitOperand (n : Int) : Except ErrorKind Byte :=
  if 1 ≤ n ∧ n ≤ 8 then .ok (BitVec.ofNat 8 (n - 1).toNat) else .error .outOfRange

end Sys2Proof.Machine
end

