-- ==== Sys2Proof/Machine/Ops.lean ====
section
/-! DEFINITION. The named operations over the state: the chain (R39, R43), `BuildTxn` (R75), `Transmit` (R42),
`WriteRegister` (R76), the record (R88), and how a command ends (R105, R106). -/

namespace Sys2Proof.Machine

/-! ### The chain -/

/-- The key of register `a` of chip `k` in `Chain.regs`: one key for each chip and address byte. -/
def chipKey (k : Nat) (a : Byte) : Nat := 256 * k + a.toNat

/-- What register `a` of chip `k` holds: the byte last written in this epoch, or a free value (R39, R43, R117). No command
reads it (R38). -/
def Chain.reg (c : Chain) (k : Nat) (a : Byte) : Byte :=
  (c.regs.read (chipKey k a)).getD (Config.freeChipReg c.epoch k a)

/-- Byte `j` of the chips' shift registers (chip index `k` holds bytes `2k` and `2k + 1`), or a free value. -/
def Chain.shiftByte (c : Chain) (j : Nat) : Byte := (c.shift.read j).getD (Config.freeShift c.epoch j)

/-- `ChipWrite(k, a, d)` (R39): the no-op address changes nothing, any other register takes the data byte. -/
def Chain.chipWrite (c : Chain) (k : Nat) (a d : Byte) : Chain :=
  if a = regAddr .noOp then c else { c with regs := c.regs.write (chipKey k a) d }

/-- All the bytes of a transaction are shifted in: chip index `k` now holds the pair of its slot (R33, R35). -/
def Chain.shiftIn (c : Chain) (buf : List Byte) : Chain := { c with shift := Memory.ofBytes 0 buf }

/-- One pair is shifted into chip index `k` (a packet from another master, R123). -/
def Chain.shiftPair (c : Chain) (k : Nat) (a d : Byte) : Chain :=
  { c with shift := (c.shift.write (2 * k) a).write (2 * k + 1) d }

/-- Chip index `k` latches the pair it holds (R39). -/
def Chain.latch (c : Chain) (k : Nat) : Chain := c.chipWrite k (c.shiftByte (2 * k)) (c.shiftByte (2 * k + 1))

/-- The load strobe: chips `0 .. n-1` latch (R34, R39). Each latches into registers of its own, so the order is of no
account. -/
def Chain.strobe (c : Chain) : Nat → Chain
  | 0 => c
  | n + 1 => (c.strobe n).latch n

/-- After a failed transmit every register of every chip may hold any value (R43, D23): a new epoch of free values. -/
def Chain.unspecified (c : Chain) : Chain := { regs := [], shift := [], epoch := c.epoch + 1 }

/-- What the chain does with a transaction (R39, R43). -/
def Chain.receive (c : Chain) (chips : Nat) (buf : List Byte) : Answer → Chain
  | .success => (c.shiftIn buf).strobe chips
  | .transportError => c.unspecified

/-! ### The block's registers -/

/-- `CHIPS` (R14). -/
def State.chips (s : State) : Nat := s.params.chips

/-- What register `a` of chip `k` holds. -/
def State.chipReg (s : State) (k : Nat) (a : Byte) : Byte := s.chain.reg k a

/-- The decode-mode record of chip `k` (R19). -/
def State.record (s : State) (k : Nat) : DecodeRecord := s.records.getD k { valid := false, modes := 0 }

/-- `DECV[k]` (R19). -/
def State.decv (s : State) (k : Nat) : Bool := (s.record k).valid

/-- `DEC[k][n]` (R19). -/
def State.dec (s : State) (k n : Nat) : Bool := (s.record k).modes.getLsbD n

/-- `CommitDecode(k, b)` (R88). -/
def State.commitDecode (s : State) (k : Nat) (b : Byte) : State :=
  { s with records := s.records.set k { valid := true, modes := b } }

/-! ### How a command ends -/

/-- Where a command stands: the state it has reached and the response it will give. -/
abbrev Reply := State × Response

/-- `raise E`, taking an exception (R105): the command ends with `E`; nothing is saved, no mode changes, control goes
nowhere; what was written stays written. There is no return from it (R106). -/
def raise (e : ErrorKind) (s : State) : Reply := (s, .error e)

/-- The command has nothing more to do: `return OK` (R10). -/
def done (s : State) : Reply := (s, .ok)

/-- Go on after a part of a command, unless that part raised (R105). -/
def Reply.andThen (x : Reply) (next : State → Reply) : Reply :=
  match x.2 with
  | .ok => next x.1
  | .error _ => x

/-- Use a checked operand, or raise what its check found (R103: before any effect). -/
def withOperand {α : Type} (check : Except ErrorKind α) (s : State) (next : α → Reply) : Reply :=
  match check with
  | .ok x => next x
  | .error e => raise e s

/-- The response is given and the command is over (R12, R97); the block is ready for the next one (R106). -/
def respond (x : Reply) : Host.Outcome State Fault Refusal :=
  .next { x.1 with history := x.1.history ++ [.response x.2] }

/-! ### The register write -/

/-- `CHIPS` slots of filler (R75, R62). -/
def fillerSlots : Nat → List Byte
  | 0 => []
  | n + 1 => regAddr .noOp :: 0x00 :: fillerSlots n

/-- The transaction for target chip `k` (R50, R75): filler in every slot, then `(a, d)` in slot `k`. -/
def txnBytes (chips k : Nat) (a d : Byte) : List Byte := ((fillerSlots chips).set (2 * k) a).set (2 * k + 1) d

/-- `BuildTxn(k, a, d)` (R75): rewrites all of `TXBUF`. -/
def State.buildTxn (s : State) (k : Nat) (a d : Byte) : State := { s with txbuf := txnBytes s.chips k a d }

/-- The answer the transport will give to the `j`-th `Transmit` call from now (R42). -/
def State.answerAt (s : State) (j : Nat) : Answer :=
  match s.answers[j]? with
  | some a => a
  | none => Config.freeAnswer (s.txCount + j)

/-- `Transmit(TXBUF)` (R42): the whole buffer is handed over, the transport answers, the chain does what R39 or R43
says. -/
def State.transmit (s : State) : State :=
  { s with
    chain := s.chain.receive s.chips s.txbuf (s.answerAt 0)
    answers := s.answers.tail
    txCount := s.txCount + 1
    history := s.history ++ [.transaction s.txbuf (s.answerAt 0)] }

/-- The command after a transmit that was answered so (R76, R100, R107): no retry, the error is passed on. -/
def afterTransmit (a : Answer) (s : State) : Reply :=
  match a with
  | .success => done s
  | .transportError => raise .transportError s

/-- Steps 2 to 4 of `WriteRegister` (R76), for a chip index that passed step 1. -/
def State.sendTo (s : State) (k : Nat) (r : RegName) (v : Byte) : Reply :=
  afterTransmit (s.answerAt 0) (s.buildTxn k (regAddr r) v).transmit

/-- `WriteRegister(r, v, k)` (R76). -/
def State.writeRegister (s : State) (r : RegName) (v : Byte) (k : Int) : Reply :=
  withOperand (chipOperand s.chips k) s fun k => s.sendTo k r v

/-- `WriteRegister(r, v, ACTIVE)`: every operation of §4.4 acts on the active chip (R16). -/
def State.writeActive (s : State) (r : RegName) (v : Byte) : Reply := s.writeRegister r v s.active

/-- The shape the three decode-mode commands share (R85 to R88): write `DecodeMode` of the active chip, and only if that
succeeded commit the record. -/
def State.sendDecode (s : State) (b : Byte) : Reply :=
  (s.writeActive .decodeMode b).andThen fun t => done (t.commitDecode s.active b)

/-! ### A packet latched by a chip -/

/-- A chip latches a packet that is not this instance's (R39, R123). The block sees nothing of it (R38). -/
def latchPacket (r : RegName) (d : Byte) (s : State) : Host.Outcome State Fault Refusal :=
  if s.latchChip < s.chips then
    .next { s with chain := (s.chain.shiftPair s.latchChip (regAddr r) d).latch s.latchChip }
  else .fault .noSuchChip

end Sys2Proof.Machine
end

