-- ==== Sys2Proof/Machine/ChainWrite.lean ====
section
/-! DEFINITION. WRREG and WRREGT (R77, R78). -/

namespace Sys2Proof.Machine

/-- WRREG (R77): look the register up, write it on the active chip. -/
def execWrreg (reg : RegOperand) (value : Byte) (s : State) : Host.Outcome State Fault Refusal :=
  respond (withOperand (lookupRegister reg) s fun r => s.writeActive r value)

/-- WRREGT (R78): look the register up, then check the target chip (R104). -/
def execWrregt (reg : RegOperand) (value : Byte) (target : Int) (s : State) : Host.Outcome State Fault Refusal :=
  respond (withOperand (lookupRegister reg) s fun r => s.writeRegister r value target)

end Sys2Proof.Machine
end

