-- ==== Sys2Proof/Machine/Configuration.lean ====
section
/-! DEFINITION. SETINT, SETSCAN, SETACT (R94 to R96). -/

namespace Sys2Proof.Machine

/-- SETINT (R94). -/
def execSetint (v : Int) (s : State) : Host.Outcome State Fault Refusal :=
  respond (withOperand (intensityOperand v) s fun b => s.writeActive .intensity b)

/-- SETSCAN (R95). -/
def execSetscan (n : Int) (s : State) : Host.Outcome State Fault Refusal :=
  respond (withOperand (scanLimitOperand n) s fun b => s.writeActive .scanLimit b)

/-- SETACT (R96): the only writer of `ACTIVE`; it transmits nothing. -/
def execSetact (i : Int) (s : State) : Host.Outcome State Fault Refusal :=
  respond (withOperand (chipOperand s.chips i) s fun k => done { s with active := k })

end Sys2Proof.Machine
end

