-- ==== Sys2Proof/Machine/DecodeMode.lean ====
section
/-! DEFINITION. SETDEC, DECNONE, DECALL (R85 to R88). -/

namespace Sys2Proof.Machine

/-- SETDEC (R85). -/
def execSetdec (modes : List Bool) (s : State) : Host.Outcome State Fault Refusal :=
  respond (withOperand (encodeSegments modes) s fun b => s.sendDecode b)

/-- DECNONE (R86). -/
def execDecnone (s : State) : Host.Outcome State Fault Refusal := respond (s.sendDecode 0x00)

/-- DECALL (R87). -/
def execDecall (s : State) : Host.Outcome State Fault Refusal := respond (s.sendDecode 0xFF)

end Sys2Proof.Machine
end

