-- ==== Sys2Proof/Machine/Digits.lean ====
section
/-! DEFINITION. SETSEG, SETSEGB, SETSYM, CLEAR (R89 to R93). The digit number is checked first (R104). -/

namespace Sys2Proof.Machine

/-- SETSEG (R90). -/
def execSetseg (n : Int) (segs : List Bool) (s : State) : Host.Outcome State Fault Refusal :=
  respond (withOperand (digitOperand n) s fun r => withOperand (encodeSegments segs) s fun b => s.writeActive r b)

/-- SETSEGB (R91). -/
def execSetsegb (n : Int) (byte : Byte) (s : State) : Host.Outcome State Fault Refusal :=
  respond (withOperand (digitOperand n) s fun r => s.writeActive r byte)

/-- SETSYM (R92). -/
def execSetsym (n : Int) (sym : List Char) (dp : Bool) (s : State) : Host.Outcome State Fault Refusal :=
  respond (withOperand (digitOperand n) s fun r => withOperand (encodeSymbol sym dp) s fun b => s.writeActive r b)

/-- The value that shows nothing on digit `n` of the active chip in its recorded mode (R93): the blank symbol if the record
says decode, else `0x00`. -/
def clearValue (s : State) (n : Fin 8) : Except ErrorKind Byte :=
  if s.decv s.active && s.dec s.active n then encodeSymbol [' '] false else .ok 0x00

/-- Clear the digits of a list, in its order; a failed transmit ends the command there (R93, R108). -/
def clearDigits : List (Fin 8) → State → Reply
  | [], s => done s
  | n :: ns, s =>
    (withOperand (clearValue s n) s fun v => s.writeActive (.digit n) v).andThen fun t => clearDigits ns t

/-- CLEAR (R93): digits 0 to 7, in that order. -/
def execClear (s : State) : Host.Outcome State Fault Refusal := respond (clearDigits [0, 1, 2, 3, 4, 5, 6, 7] s)

end Sys2Proof.Machine
end

