-- ==== Sys2Proof/Machine/Packets.lean ====
section
/-! DEFINITION. The wire packets (R51, R52): each is latched by the chip `latchChip` and has the effect R39 gives it. -/

namespace Sys2Proof.Machine

/-- PKT.NoOp (R39, R52). -/
def execPktNoOp (d : Byte) (s : State) : Host.Outcome State Fault Refusal := latchPacket .noOp d s

/-- PKT.Digit0 (R39, R52). -/
def execPktDigit0 (d : Byte) (s : State) : Host.Outcome State Fault Refusal := latchPacket (.digit 0) d s

/-- PKT.Digit1 (R39, R52). -/
def execPktDigit1 (d : Byte) (s : State) : Host.Outcome State Fault Refusal := latchPacket (.digit 1) d s

/-- PKT.Digit2 (R39, R52). -/
def execPktDigit2 (d : Byte) (s : State) : Host.Outcome State Fault Refusal := latchPacket (.digit 2) d s

/-- PKT.Digit3 (R39, R52). -/
def execPktDigit3 (d : Byte) (s : State) : Host.Outcome State Fault Refusal := latchPacket (.digit 3) d s

/-- PKT.Digit4 (R39, R52). -/
def execPktDigit4 (d : Byte) (s : State) : Host.Outcome State Fault Refusal := latchPacket (.digit 4) d s

/-- PKT.Digit5 (R39, R52). -/
def execPktDigit5 (d : Byte) (s : State) : Host.Outcome State Fault Refusal := latchPacket (.digit 5) d s

/-- PKT.Digit6 (R39, R52). -/
def execPktDigit6 (d : Byte) (s : State) : Host.Outcome State Fault Refusal := latchPacket (.digit 6) d s

/-- PKT.Digit7 (R39, R52). -/
def execPktDigit7 (d : Byte) (s : State) : Host.Outcome State Fault Refusal := latchPacket (.digit 7) d s

/-- PKT.DecodeMode (R39, R52). -/
def execPktDecodeMode (d : Byte) (s : State) : Host.Outcome State Fault Refusal := latchPacket .decodeMode d s

/-- PKT.Intensity (R39, R52). -/
def execPktIntensity (d : Byte) (s : State) : Host.Outcome State Fault Refusal := latchPacket .intensity d s

/-- PKT.ScanLimit (R39, R52). -/
def execPktScanLimit (d : Byte) (s : State) : Host.Outcome State Fault Refusal := latchPacket .scanLimit d s

/-- PKT.Shutdown (R39, R52). -/
def execPktShutdown (d : Byte) (s : State) : Host.Outcome State Fault Refusal := latchPacket .shutdown d s

/-- PKT.DisplayTest (R39, R52). -/
def execPktDisplayTest (d : Byte) (s : State) : Host.Outcome State Fault Refusal := latchPacket .displayTest d s

end Sys2Proof.Machine
end

