-- ==== Sys2Proof/Machine/PowerTest.lean ====
section
/-! DEFINITION. STARTUP, SHUTDOWN, TESTON, TESTOFF (R81 to R84). -/

namespace Sys2Proof.Machine

/-- STARTUP (R81). -/
def execStartup (s : State) : Host.Outcome State Fault Refusal := respond (s.writeActive .shutdown 0x01)

/-- SHUTDOWN (R82). -/
def execShutdown (s : State) : Host.Outcome State Fault Refusal := respond (s.writeActive .shutdown 0x00)

/-- TESTON (R83). -/
def execTeston (s : State) : Host.Outcome State Fault Refusal := respond (s.writeActive .displayTest 0x01)

/-- TESTOFF (R84). -/
def execTestoff (s : State) : Host.Outcome State Fault Refusal := respond (s.writeActive .displayTest 0x00)

end Sys2Proof.Machine
end

