-- ==== Sys2Proof/Machine/Dispatch.lean ====
section
/-! DEFINITION. `exec`: one arm for each instruction. -/

namespace Sys2Proof.Machine

def exec (i : Instr) (s : State) : Host.Outcome State Fault Refusal :=
  match i with
  | .wrreg reg value => Sys2Proof.Machine.execWrreg reg value s
  | .wrregt reg value target => Sys2Proof.Machine.execWrregt reg value target s
  | .startup => Sys2Proof.Machine.execStartup s
  | .shutdown => Sys2Proof.Machine.execShutdown s
  | .teston => Sys2Proof.Machine.execTeston s
  | .testoff => Sys2Proof.Machine.execTestoff s
  | .setdec modes => Sys2Proof.Machine.execSetdec modes s
  | .decnone => Sys2Proof.Machine.execDecnone s
  | .decall => Sys2Proof.Machine.execDecall s
  | .setseg n segs => Sys2Proof.Machine.execSetseg n segs s
  | .setsegb n byte => Sys2Proof.Machine.execSetsegb n byte s
  | .setsym n sym dp => Sys2Proof.Machine.execSetsym n sym dp s
  | .clear => Sys2Proof.Machine.execClear s
  | .setint v => Sys2Proof.Machine.execSetint v s
  | .setscan n => Sys2Proof.Machine.execSetscan n s
  | .setact k => Sys2Proof.Machine.execSetact k s
  | .pktNoOp d => Sys2Proof.Machine.execPktNoOp d s
  | .pktDigit0 d => Sys2Proof.Machine.execPktDigit0 d s
  | .pktDigit1 d => Sys2Proof.Machine.execPktDigit1 d s
  | .pktDigit2 d => Sys2Proof.Machine.execPktDigit2 d s
  | .pktDigit3 d => Sys2Proof.Machine.execPktDigit3 d s
  | .pktDigit4 d => Sys2Proof.Machine.execPktDigit4 d s
  | .pktDigit5 d => Sys2Proof.Machine.execPktDigit5 d s
  | .pktDigit6 d => Sys2Proof.Machine.execPktDigit6 d s
  | .pktDigit7 d => Sys2Proof.Machine.execPktDigit7 d s
  | .pktDecodeMode d => Sys2Proof.Machine.execPktDecodeMode d s
  | .pktIntensity d => Sys2Proof.Machine.execPktIntensity d s
  | .pktScanLimit d => Sys2Proof.Machine.execPktScanLimit d s
  | .pktShutdown d => Sys2Proof.Machine.execPktShutdown d s
  | .pktDisplayTest d => Sys2Proof.Machine.execPktDisplayTest d s

end Sys2Proof.Machine
end

