-- ==== Sys2Proof/Machine/Fetch.lean ====
section
/-! DEFINITION. Taking the next input and running it (R12). There is no program counter and no instruction memory (R23):
what is executed is what the host presents, in its order (R44). -/

namespace Sys2Proof.Machine

/-- A command word that matches no row (R66): the response is `InvalidArgument`, nothing else happens. -/
def illegalCommand (s : State) : Host.Outcome State Fault Refusal := respond (raise .invalidArgument s)

/-- The most chips a block can have whose commands come as words (R6, D6): a chip index is an 8-bit field. -/
def wordLevelChips : Nat := 256

/-- A command word at the host's port (R65, R66), which only a block of at most 256 chips has (R6, D6; assumption log
17). -/
def runCmd (w : CmdWord) (s : State) : Host.Outcome State Fault Refusal :=
  if s.chips ≤ wordLevelChips then
    match decodeCmd w with
    | .ok i => exec i s
    | .error _ => illegalCommand s
  else .refused .tooManyChipsForWords

/-- A command at the abstract level (R5, R68). -/
def runCall (i : Instr) (s : State) : Host.Outcome State Fault Refusal :=
  if i.isPacket then .refused .packetIsNoCommand else exec i s

/-- A packet latched by chip `k` (R39, R123). -/
def runLatch (k : Nat) (w : Packet) (s : State) : Host.Outcome State Fault Refusal :=
  match decodePkt w with
  | .ok i => exec i { s with latchChip := k }
  | .error _ => .refused .unnamedPacketAddress

/-- Run one input. -/
def runInput (x : Input) (s : State) : Host.Outcome State Fault Refusal :=
  match x with
  | .cmd w => runCmd w s
  | .call i => runCall i s
  | .latch k w => runLatch k w s

/-- Take the next input and run it. A run is over when the host has no further command (R12). -/
def runNext (s : State) : Host.Outcome State Fault Refusal :=
  match s.inputs with
  | [] => .refused .noCommand
  | x :: rest => runInput x { s with inputs := rest }

/-- The input that presents a row's word: a packet, latched by chip 0, for a 16-bit row, else a command word. -/
def inputOfWord (nbits w : Nat) : Input :=
  if nbits ≤ 16 then .latch 0 (BitVec.ofNat 16 w) else .cmd (BitVec.ofNat 32 w)

end Sys2Proof.Machine
end

