-- ==== Sys2Proof/Machine/Step.lean ====
section
/-! DEFINITION. The step (R12): one input is consumed. -/

namespace Sys2Proof.Machine

/-- One step. -/
def step (s : State) : Host.Outcome State Fault Refusal := runNext s

/-- The state whose very next step runs the instruction with these bits. The program of this machine is what the host
presents (R23, assumption log 9), so the word is put in front of the inputs still to come. -/
def State.withFetchWord (s : State) (nbits w : Nat) : State := { s with inputs := inputOfWord nbits w :: s.inputs }

end Sys2Proof.Machine
end

