-- ==== Sys2Proof/Machine/Flags.lean ====
section
/-! DEFINITION. The block has no flags (R24). What comes nearest is the response of a command, coded in two bits at the
binary level (R67, R101). -/

namespace Sys2Proof.Machine

/-- `RESP[1:0]` (R67). -/
def respCode : Response → BitVec 2
  | .ok => 0b00
  | .error .invalidArgument => 0b01
  | .error .outOfRange => 0b10
  | .error .transportError => 0b11

end Sys2Proof.Machine
end

