-- ==== Sys2Proof/Machine/Wire.lean ====
section
/-! DEFINITION. The wire (R32 to R35): what a transaction is as bits and a strobe, and the chain as a delay line. The step
works on whole transactions (R37, R42); these definitions say what one is on the wire. -/

namespace Sys2Proof.Machine

/-- What goes over the wire: a data bit, or the load strobe. -/
inductive WireEvent where
  | bit (b : Bool)
  | strobe
deriving DecidableEq, Repr

/-- The bits of a byte in the order they are sent: most significant first (R32). -/
def byteWire (b : Byte) : List Bool := (bitsOfByte b).reverse

/-- The serial bits `W` of a transaction: byte 0 first (R33). -/
def wireBits (buf : List Byte) : List Bool := buf.flatMap byteWire

/-- Bits on the wire, then one load strobe (R34). -/
def strobed (bits : List Bool) : List WireEvent := bits.map .bit ++ [.strobe]

/-- A transaction on the wire (R33, R34). -/
def wireOf (buf : List Byte) : List WireEvent := strobed (wireBits buf)

/-- The `n`-th `Transmit` call on the wire: one load strobe whatever the answer (R34, D2), after the bits of the transaction
(R33), or, if the transport failed it, after bits of which nothing is known (R43, D23; DESIGN CHOICE of the form,
assumption log 18). -/
def transmitWire (n : Nat) (buf : List Byte) : Answer → List WireEvent
  | .success => wireOf buf
  | .transportError => strobed (Config.freeFailedBits n buf)

/-- The wire stream of a run whose first transaction is the `n`-th `Transmit` call. -/
def wireStream : (n : Nat) → List Event → List WireEvent
  | _, [] => []
  | n, .transaction bytes answer :: es => transmitWire n bytes answer ++ wireStream (n + 1) es
  | n, .response _ :: es => wireStream n es

/-- Everything the block has put on the wire since reset, which puts nothing there (R116). -/
def State.wire (s : State) : List WireEvent := wireStream 0 s.history

/-- How many `Transmit` calls a run made. -/
def transmitCalls : List Event → Nat
  | [] => 0
  | .transaction .. :: es => transmitCalls es + 1
  | .response _ :: es => transmitCalls es

/-- The packet of slot `k` (R33): `PKT_k = {buf[2k], buf[2k+1]}`. -/
def slotPacket (buf : List Byte) (k : Nat) : Packet := buf.getD (2 * k) 0 ++ buf.getD (2 * k + 1) 0

/-- One bit enters the chain at the end wired to the block, and every bit moves one place on: the chain is a line of bits,
nearest the block first (R35; 16 places a chip is the spec's general knowledge G6, PRESUMED, assumption log 15). -/
def shiftBit (line : List Bool) (b : Bool) : List Bool := b :: line.dropLast

/-- Bits enter one after another. -/
def shiftBits (line : List Bool) (bits : List Bool) : List Bool := bits.foldl shiftBit line

/-- How many chips stand between chip index `k` and the block (R35). -/
def chipsBefore (chips k : Nat) : Nat := chips - 1 - k

end Sys2Proof.Machine
end

