-- ==== Sys2Proof/Safety.lean ====
section
/-! DEFINITION. The terms the claims use: the shape of a transaction (R50, R79), the invariant (R28), and what a command
leaves behind when its transaction succeeds, when it fails, and when its check fails. -/

namespace Sys2Proof.Machine

/-- The buffer is one transaction for chip `k`: `2 * chips` bytes, the pair `(a, d)` in slot `k`, zero at every other
offset (R50, R79). -/
structure SlotPair (chips k : Nat) (a d : Byte) (buf : List Byte) : Prop where
  length : buf.length = 2 * chips
  bytes : ∀ j, j < 2 * chips → buf[j]? = some (if j = 2 * k then a else if j = 2 * k + 1 then d else 0)

/-- The buffer carries one write of a named register of one chip of the chain, and filler for the others (R50). -/
def TxnShape (chips : Nat) (buf : List Byte) : Prop :=
  ∃ k r v, k < chips ∧ SlotPair chips k (regAddr r) v buf

/-- The invariant of every reachable state: (I1) to (I4) and (I6) of R28, canonical memories that hold only what exists in
the chain, and every transaction ever handed over of the right shape (R79). -/
structure State.Inv (s : State) : Prop where
  chips_pos : 1 ≤ s.chips
  active_lt : s.active < s.chips
  txbuf_shape : TxnShape s.chips s.txbuf
  records_length : s.records.length = s.chips
  regs_wf : s.chain.regs.wf = true
  regs_named : ∀ cell ∈ s.chain.regs, ∃ k r, k < s.chips ∧ r ≠ .noOp ∧ cell.1 = chipKey k (regAddr r)
  shift_wf : s.chain.shift.wf = true
  shift_keys : ∀ cell ∈ s.chain.shift, cell.1 < 2 * s.chips
  history_shape : ∀ bytes answer, Event.transaction bytes answer ∈ s.history → TxnShape s.chips bytes

/-- The premise "the bus is always writable" (R42, D24) for the next `n` `Transmit` calls. -/
def State.Writable (s : State) (n : Nat) : Prop := ∀ j, j < n → s.answerAt j = .success

/-- What a command that sent one transaction leaves as it was, whatever the answer: the parameters, `ACTIVE`, and the
other agents' pending choices but for the one answer used. -/
structure OneTransmit (s t : State) : Prop where
  params : t.params = s.params
  active : t.active = s.active
  inputs : t.inputs = s.inputs
  latchChip : t.latchChip = s.latchChip
  answers : t.answers = s.answers.tail
  txCount : t.txCount = s.txCount + 1

/-- `t` is `s` after a command whose one transaction, `(a, d)` for chip `k`, succeeded, with response `OK`; of the records
it says nothing. In the chain, register `a` of chip `k` took `d` (nothing, for the no-op address) and every other register
of every chip is as it was (R39). -/
structure Delivered (s t : State) (k : Nat) (a d : Byte) : Prop extends OneTransmit s t where
  txbuf : SlotPair s.chips k a d t.txbuf
  history : t.history = s.history ++ [.transaction t.txbuf .success, .response .ok]
  chipReg : ∀ k' a', t.chipReg k' a' = if a ≠ 0 ∧ k' = k ∧ a' = a then d else s.chipReg k' a'
  shift : ∀ j, j < 2 * s.chips → t.chain.shiftByte j = t.txbuf.getD j 0
  epoch : t.chain.epoch = s.chain.epoch

/-- `t` is `s` after a command whose one transaction, `(a, d)` for chip `k`, the transport failed: the response is
`TransportError`, the records are as they were, and `TXBUF` holds the transaction that failed (R100, R107). Of the chain it
says nothing; that is R43. -/
structure Undelivered (s t : State) (k : Nat) (a d : Byte) : Prop extends OneTransmit s t where
  records : t.records = s.records
  txbuf : SlotPair s.chips k a d t.txbuf
  history : t.history = s.history ++ [.transaction t.txbuf .transportError, .response (.error .transportError)]

/-- Nothing is known of any chip: every register and every shifted byte is a free value of epoch `e` (R43, R117). -/
structure Chain.Unknown (c : Chain) (e : Nat) : Prop where
  epoch : c.epoch = e
  reg : ∀ k a, c.reg k a = Config.freeChipReg e k a
  shift : ∀ j, c.shiftByte j = Config.freeShift e j

/-- The state after a command that ended with a response and no effect (R103). -/
def State.answered (s : State) (r : Response) : State := { s with history := s.history ++ [.response r] }

/-- One row of R65's table. -/
structure CmdRow where
  op : CmdOp
  mask : CmdWord
  pattern : CmdWord
deriving DecidableEq, Repr

/-- The 16 rows of R65's table, masks and matches as printed. -/
def cmdRows : List CmdRow :=
  [⟨.wrreg, 0xFF0000FF, 0x01000000⟩, ⟨.wrregt, 0xFF000000, 0x02000000⟩, ⟨.startup, 0xFFFFFFFF, 0x10000000⟩,
   ⟨.shutdown, 0xFFFFFFFF, 0x11000000⟩, ⟨.teston, 0xFFFFFFFF, 0x12000000⟩, ⟨.testoff, 0xFFFFFFFF, 0x13000000⟩,
   ⟨.setdec, 0xFFFF00FF, 0x20000000⟩, ⟨.decnone, 0xFFFFFFFF, 0x21000000⟩, ⟨.decall, 0xFFFFFFFF, 0x22000000⟩,
   ⟨.setseg, 0xFF0000FF, 0x30000000⟩, ⟨.setsegb, 0xFF0000FF, 0x31000000⟩, ⟨.setsym, 0xFF0000FE, 0x32000000⟩,
   ⟨.clear, 0xFFFFFFFF, 0x33000000⟩, ⟨.setint, 0xFF00FFFF, 0x40000000⟩, ⟨.setscan, 0xFF00FFFF, 0x41000000⟩,
   ⟨.setact, 0xFF00FFFF, 0x42000000⟩]

/-- A word lies in a row: `w AND mask = match`. -/
def CmdRow.matches (row : CmdRow) (w : CmdWord) : Prop := w &&& row.mask = row.pattern

/-- Two states that the host and the chain cannot tell apart: they may differ in `TXBUF` (R18) and, of the records, only in
what no `clearDisplay` can read (R20): digit `n` of chip `k` is recorded as decode in both or in neither. -/
structure Indistinguishable (s t : State) : Prop where
  params : t.params = s.params
  active : t.active = s.active
  chain : t.chain = s.chain
  inputs : t.inputs = s.inputs
  answers : t.answers = s.answers
  txCount : t.txCount = s.txCount
  latchChip : t.latchChip = s.latchChip
  history : t.history = s.history
  records_length : t.records.length = s.records.length
  decode : ∀ k n, n < 8 → (t.decv k && t.dec k n) = (s.decv k && s.dec k n)

end Sys2Proof.Machine

namespace Sys2Proof

open Sys2Proof.Machine

/-- R98 (a) to (c): the operands that make a command end with `InvalidArgument`, where no check before it fails. -/
def Instr.hasInvalidOperand : Instr → Bool
  | .wrreg (.unknown _) _ => true
  | .wrregt (.unknown _) _ _ => true
  | .setdec modes => modes.length != 8
  | .setseg _ segs => segs.length != 8
  | .setsym _ sym _ => (symbolCode sym).isNone
  | _ => false

/-- R99: the operands that make a command end with `OutOfRange`, where no check before it fails. -/
def Instr.hasOperandOutOfRange (chips : Nat) : Instr → Bool
  | .wrregt _ _ k => !decide (0 ≤ k ∧ k < chips)
  | .setact i => !decide (0 ≤ i ∧ i < chips)
  | .setseg n _ => !decide (0 ≤ n ∧ n ≤ 7)
  | .setsegb n _ => !decide (0 ≤ n ∧ n ≤ 7)
  | .setsym n _ _ => !decide (0 ≤ n ∧ n ≤ 7)
  | .setint v => !decide (0 ≤ v ∧ v ≤ 15)
  | .setscan n => !decide (1 ≤ n ∧ n ≤ 8)
  | _ => false

/-- The chip a host command addresses: the explicit target of `WRREGT`, else the active chip (R16, R78). -/
def Instr.targetChip (active : Nat) : Instr → Int
  | .wrregt _ _ k => k
  | _ => active

/-- The opcode of a host command; a packet has none. -/
def Instr.cmdOp : Instr → Option CmdOp
  | .wrreg .. => some .wrreg
  | .wrregt .. => some .wrregt
  | .startup => some .startup
  | .shutdown => some .shutdown
  | .teston => some .teston
  | .testoff => some .testoff
  | .setdec _ => some .setdec
  | .decnone => some .decnone
  | .decall => some .decall
  | .setseg .. => some .setseg
  | .setsegb .. => some .setsegb
  | .setsym .. => some .setsym
  | .clear => some .clear
  | .setint _ => some .setint
  | .setscan _ => some .setscan
  | .setact _ => some .setact
  | .pktNoOp _ | .pktDigit0 _ | .pktDigit1 _ | .pktDigit2 _ | .pktDigit3 _ | .pktDigit4 _ | .pktDigit5 _
  | .pktDigit6 _ | .pktDigit7 _ | .pktDecodeMode _ | .pktIntensity _ | .pktScanLimit _ | .pktShutdown _
  | .pktDisplayTest _ => none

end Sys2Proof
end

