-- ==== Sys2Proof/Certificates/Slice0/Obligations.lean ====
section
/-! DEFINITION. The statements for the provers. Those about commands hold for every chip count, every state that meets
the hypotheses, and every value of the free values (`Config.freeAnswer`, `Config.freeChipReg`, `Config.freeShift`,
`Config.freeFailedBits`). Register addresses are written `regAddr r` (REGADDR of R52, whose numbers are general
knowledge G1, assumption log 4), symbol codes `symCode c` (SYMCODE of R56, G2, log 5). Where a command's statement gives
its word, the word is R65's, which is the spec's own decision D12; which of two bad operands is reported is R104's, the
spec's decision D8 (assumption log 12). -/

open Sys2Proof Sys2Proof.Machine

/-! ### Encoding -/

/-- R51, R52, R63 to R65: no bit of an operand is lost; the decoder reads from every well-formed instruction's word that
instruction, for every operand the word can express. (The opcode numbers are the spec's decision D12.) -/
def Obligations.DecodeOfEncodeIsTheInstruction : Prop :=
  ∀ i : Instr, i.wf = true → decode (encode i) = .ok i

/-- R65, R66: the words that decode are the words of well-formed instructions, each of one instruction alone. -/
def Obligations.DecodedWordIsTheEncodingOfItsInstruction : Prop :=
  ∀ (w : CodeWord) (i : Instr), decode w = .ok i → i.wf = true ∧ encode i = w

/-- R65 (numbers: D12): a command word decodes to the command of the row whose mask and match it meets, and no word meets
two rows. -/
def Obligations.CommandWordSelectsItsOnlyRow : Prop :=
  (∀ (w : CmdWord) (o : CmdOp),
    (∃ i, decodeCmd w = .ok i ∧ i.cmdOp = some o) ↔ ∃ row ∈ cmdRows, row.op = o ∧ row.matches w) ∧
  ∀ (w : CmdWord), ∀ row ∈ cmdRows, ∀ row' ∈ cmdRows, row.matches w → row'.matches w → row = row'

/-- R66 (D14): at a block whose commands can come as words (R6), a command word that meets no row ends with
`InvalidArgument` and changes nothing; the opcodes no row has are those R66 lists. -/
def Obligations.UnmatchedCommandWordAnswersInvalidArgument : Prop :=
  (∀ (s : State) (w : CmdWord) (rest : List Input), s.chips ≤ 256 → s.inputs = .cmd w :: rest →
    (∀ row ∈ cmdRows, ¬ row.matches w) → step s = .next ({ s with inputs := rest }.answered (.error .invalidArgument))) ∧
  ∀ op : Byte, (∀ a b c, ∀ row ∈ cmdRows, ¬ row.matches (cmdWord op a b c)) ↔
    op.toNat = 0x00 ∨ (0x03 ≤ op.toNat ∧ op.toNat ≤ 0x0F) ∨ (0x14 ≤ op.toNat ∧ op.toNat ≤ 0x1F) ∨
      (0x23 ≤ op.toNat ∧ op.toNat ≤ 0x2F) ∨ (0x34 ≤ op.toNat ∧ op.toNat ≤ 0x3F) ∨ 0x43 ≤ op.toNat

/-- A few words written out from the spec's encodings (R65, R66, R52, R53): the vectors V24, V29, V31, V90, V54, V63, V91 and
V88, a `SETACT` word, and two packets. They rest on the spec's decisions D12 (fields and opcodes), D14 (words of no row) and
D15 (characters), and on its general knowledge G1 (register addresses, assumption log 4) and G8 (ASCII, log 5). -/
def Obligations.WordsOfTheSpecDecode : Prop :=
  decodeCmd 0x010C0100 = .ok (.wrreg (.known .shutdown) 0x01) ∧
  decodeCmd 0x020F0103 = .ok (.wrregt (.known .displayTest) 0x01 3) ∧
  decodeCmd 0x010D0100 = .ok (.wrreg (.unknown 0x0D) 0x01) ∧
  decodeCmd 0x2000A500 = .ok (.setdec [true, false, true, false, false, true, false, true]) ∧
  decodeCmd 0x30028100 = .ok (.setseg 2 [true, false, false, false, false, false, false, true]) ∧
  decodeCmd 0x32032D01 = .ok (.setsym 3 ['-'] true) ∧
  decodeCmd 0x42030000 = .ok (.setact 3) ∧
  decodeCmd 0x20010000 = .error .reservedFieldNonZero ∧
  decodeCmd 0x14000000 = .error .unassignedOpcode ∧
  decodePkt 0x0A07 = .ok (.pktIntensity 0x07) ∧
  decodePkt 0x0D00 = .error .unnamedAddress

/-- R52, R53: 14 distinct addresses, all in `0x00 .. 0x0F`, `NoOp` at `0x00`. The other numbers are the spec's general
knowledge (G1, assumption log 4); with them `0x0D`, `0x0E` and `0x10` up have no name, and `DIGIT(n)` is at `n + 1`
(R89). -/
def Obligations.RegisterAddressMap : Prop :=
  (∀ r r', regAddr r = regAddr r' → r = r') ∧ (∀ r, (regAddr r).toNat ≤ 0x0F) ∧ (∀ r, r ∈ allRegs) ∧
  allRegs.length = 14 ∧ regAddr .noOp = 0x00 ∧ (∀ n : Fin 8, (regAddr (.digit n)).toNat = n.val + 1) ∧
  regAddr .decodeMode = 0x09 ∧ regAddr .intensity = 0x0A ∧ regAddr .scanLimit = 0x0B ∧ regAddr .shutdown = 0x0C ∧
  regAddr .displayTest = 0x0F ∧
  (∀ a : Byte, (∀ r, regAddr r ≠ a) ↔ (a = 0x0D ∨ a = 0x0E ∨ 0x10 ≤ a.toNat)) ∧
  ∀ (a : Byte) (r : RegName), regOf a = some r ↔ regAddr r = a

/-! ### The codec -/

/-- R70: a sequence of eight elements packs element `i` into bit `i`; as a number the byte is the sum of the elements'
weights; any other length is `InvalidArgument`. -/
def Obligations.EncodeSegmentsPacksElementIntoBit : Prop :=
  ∀ bits : List Bool,
    (bits.length = 8 → ∃ b, encodeSegments bits = .ok b ∧ (∀ i, i < 8 → b.getLsbD i = bits.getD i false) ∧
      b.toNat = ∑ i ∈ Finset.range 8, (bits.getD i false).toNat * 2 ^ i) ∧
    (bits.length ≠ 8 → encodeSegments bits = .error .invalidArgument)

/-- R71, R72: unpacking takes the bits one by one; packing and unpacking are inverse to each other, so packing is a
bijection of the sequences of eight onto the bytes. -/
def Obligations.SegmentsRoundTrip : Prop :=
  (∀ b : Byte, (decodeSegments b).length = 8 ∧ ∀ i, i < 8 → (decodeSegments b).getD i false = b.getLsbD i) ∧
  (∀ bits : List Bool, bits.length = 8 → ∃ b, encodeSegments bits = .ok b ∧ decodeSegments b = bits) ∧
  ∀ b : Byte, encodeSegments (decodeSegments b) = .ok b

/-- R73: the symbol byte has the decimal point in bit 7, zeros, and the code in the low nibble; as a number it is the code
plus 128 for the point; a symbol that is not one character of the table is `InvalidArgument`, whatever the point. -/
def Obligations.EncodeSymbolBuildsTheSymbolByte : Prop :=
  ∀ (sym : List Char) (dp : Bool),
    (∀ c code, sym = [c] → symCode c = some code → ∃ b, encodeSymbol sym dp = .ok b ∧ b.getLsbD 7 = dp ∧
      b.extractLsb' 4 3 = (0 : BitVec 3) ∧ b.extractLsb' 0 4 = code ∧ b.toNat = code.toNat + 128 * dp.toNat) ∧
    ((∀ c, sym = [c] → symCode c = none) → encodeSymbol sym dp = .error .invalidArgument) ∧
    (∀ c ∈ ['h', 'e', 'l', 'p', 'A', '.'], symCode c = none) ∧ encodeSymbol [' '] false = .ok 0x0F ∧
    encodeSymbol ['H'] false = .ok 0x0C ∧ encodeSymbol ['H'] true = .ok 0x8C

/-- R56: exactly 16 characters have a code, the code being the place in the list. Only `'H'` and `' '` are the source's;
the other codes are the spec's general knowledge (G2, assumption log 5). -/
def Obligations.SymbolTableHasSixteenCharacters : Prop :=
  (∀ p : Fin 16, ∃ c, ['0', '1', '2', '3', '4', '5', '6', '7', '8', '9', '-', 'E', 'H', 'L', 'P', ' '][p.val]? = some c ∧
    symCode c = some (BitVec.ofNat 4 p)) ∧
  (∀ c, c ∉ ['0', '1', '2', '3', '4', '5', '6', '7', '8', '9', '-', 'E', 'H', 'L', 'P', ' '] → symCode c = none) ∧
  symCode 'H' = some 0xC ∧ symCode ' ' = some 0xF

/-! ### Transactions and the wire -/

/-- R75: `BuildTxn` leaves `TXBUF` with the pair in slot `k` and zero everywhere else, whatever was there, and changes
nothing else. -/
def Obligations.BuildTxnFillsThenOverwritesOneSlot : Prop :=
  ∀ (s : State) (k : Nat) (a d : Byte), k < s.chips →
    SlotPair s.chips k a d (s.buildTxn k a d).txbuf ∧ s.buildTxn k a d = { s with txbuf := (s.buildTxn k a d).txbuf }

/-- R76: `WriteRegister` checks the chip index before anything else; if it is in range the buffer is built and handed to the
transport exactly once, and the transport's failure, if it fails, is passed on; the chain does what this answer makes of the
transaction. `ACTIVE` and the records are not written. -/
def Obligations.WriteRegisterChecksBuildsAndTransmitsOnce : Prop :=
  ∀ (s : State) (r : RegName) (v : Byte) (k : Int),
    (¬ (0 ≤ k ∧ k < s.chips) → s.writeRegister r v k = (s, .error .outOfRange)) ∧
    (∀ c : Nat, k = c → c < s.chips → ∃ t, OneTransmit s t ∧ t.records = s.records ∧
      SlotPair s.chips c (regAddr r) v t.txbuf ∧ t.history = s.history ++ [.transaction t.txbuf (s.answerAt 0)] ∧
      t.chain = s.chain.receive s.chips t.txbuf (s.answerAt 0) ∧
      s.writeRegister r v k = (t, if s.answerAt 0 = .success then .ok else .error .transportError))

/-- R39: a chip that latches a pair takes the data byte into the register its address byte names, and nothing for the no-op
address; a successful transaction does this for every chip of the chain with the pair of its slot; so a successful
`WriteRegister` changes one register of one chip, and for `NoOp` none. -/
def Obligations.LatchedPairTakesEffectOnItsChip : Prop :=
  (∀ (c : Chain) k a d k' a',
    (c.chipWrite k a d).reg k' a' = if a ≠ regAddr .noOp ∧ k' = k ∧ a' = a then d else c.reg k' a') ∧
  (∀ (c : Chain) chips buf, buf.length = 2 * chips → ∀ k a,
    (c.receive chips buf .success).reg k a =
      if k < chips then (c.chipWrite k (buf.getD (2 * k) 0) (buf.getD (2 * k + 1) 0)).reg k a else c.reg k a) ∧
  ∀ (s : State) (r : RegName) (v : Byte) (k : Nat), k < s.chips → s.answerAt 0 = .success →
    ∃ t, s.writeRegister r v k = (t, .ok) ∧
      ∀ k' a, t.chipReg k' a = if r ≠ .noOp ∧ k' = k ∧ a = regAddr r then v else s.chipReg k' a

/-- R43 (D23; the form of the free values is assumption log 7): after a command that ends with `TransportError` every
register of every chip, and every byte in the chips' shift registers, is a free value of a new epoch; no other command
starts one. -/
def Obligations.FailedTransmitLeavesTheChainUnknown : Prop :=
  ∀ (s t : State) (i : Instr), i.isPacket = false → exec i s = .next t →
    (t.history.getLast? = some (.response (.error .transportError)) → t.chain.Unknown (s.chain.epoch + 1)) ∧
    (t.history.getLast? ≠ some (.response (.error .transportError)) → t.chain.epoch = s.chain.epoch)

/-- R33: bit `m` of byte `j` on the wire is bit `7 - m` of the byte; for slot `k`, bit `m` is bit `15 - m` of its
packet. -/
def Obligations.WireSendsMostSignificantBitFirst : Prop :=
  ∀ buf : List Byte, (wireBits buf).length = 8 * buf.length ∧
    (∀ j m, j < buf.length → m < 8 → (wireBits buf)[8 * j + m]? = some ((buf.getD j 0).getLsbD (7 - m))) ∧
    ∀ k m, 2 * k + 1 < buf.length → m < 16 → (wireBits buf)[16 * k + m]? = some ((slotPacket buf k).getLsbD (15 - m))

/-- R34 (D2): every `Transmit` call puts one load strobe on the wire, whatever the transport answers, after all its bits and
before any bit of a later call. The bits of a successful transaction are those of R33; what bits a failed one sent is a free
value, since R43 leaves it open (assumption log 18), and its failure changes nothing of what the others sent. Responses put
nothing on the wire. So an instance has sent as many strobes as it made `Transmit` calls, none before its first (R116), and
no instruction puts a strobe there but by a call. -/
def Obligations.OneStrobeEndsEachTransaction : Prop :=
  (∀ (n : Nat) (es : List Event) (buf : List Byte) (a : Answer), ∃ bits : List Bool,
    wireStream n (es ++ [.transaction buf a]) = wireStream n es ++ bits.map .bit ++ [.strobe] ∧
      (a = .success → bits = wireBits buf)) ∧
  (∀ n es r, wireStream n (es ++ [.response r]) = wireStream n es) ∧
  (∀ n es, (wireStream n es).count .strobe = transmitCalls es) ∧
  (∀ s : State, ∃ bits : List Bool, s.transmit.wire = s.wire ++ bits.map .bit ++ [.strobe] ∧
    (s.answerAt 0 = .success → bits = wireBits s.txbuf)) ∧
  (∀ (s t : State) (i : Instr), exec i s = .next t →
    t.wire.count .strobe + s.txCount = s.wire.count .strobe + t.txCount) ∧
  ∀ chips dev, (State.construct chips dev).wire = []

/-- R35: when all the bits of a transaction have entered a chain of `chips` chips of 16 places each, the chip with `p` chips
between it and the block holds the packet of slot `chips - 1 - p`, bit `i` at its place `i`; so the slot of chip index `k`
ends in the chip with `chipsBefore chips k` chips before it. The 16 places a chip are the spec's general knowledge (G6,
assumption log 15). -/
def Obligations.DelayLineBringsSlotToItsChip : Prop :=
  ∀ (chips : Nat) (buf : List Byte) (line : List Bool), buf.length = 2 * chips → line.length = 16 * chips →
    ∀ k i, k < chips → i < 16 →
      (shiftBits line (wireBits buf))[16 * chipsBefore chips k + i]? = some ((slotPacket buf k).getLsbD i)

/-- R39, R51: what a successful transaction does to the chain's registers is what its packets do, each executed as a PKT16
instruction by the chip of its slot, one after another, in any order. That a packet is an instruction of its own, executed
by the chip `latchChip` alone, is the model's choice (assumption log 10). -/
def Obligations.TransactionIsThePacketsOfItsSlots : Prop :=
  ∀ (s : State) (buf : List Byte) (packets : List Instr), TxnShape s.chips buf → packets.length = s.chips →
    (∀ k i, packets[k]? = some i → decodePkt (slotPacket buf k) = .ok i) →
    ∀ order : List Nat, order.Perm (List.range s.chips) →
      ∃ t, order.foldl (fun acc k => match acc with
          | .next u => (match packets[k]? with
            | some i => exec i { u with latchChip := k }
            | none => acc)
          | stop => stop) (Host.Outcome.next s) = .next t ∧
        ∀ k a, t.chipReg k a = (s.chain.receive s.chips buf .success).reg k a

/-- R39: a packet latched by a chip of the chain: the register its address names takes the data byte, for the no-op address
nothing changes; no other register of any chip and nothing of the block changes. All 14 packets. -/
def Obligations.LatchedPacketWritesItsRegister : Prop :=
  ∀ (s : State) (d : Byte), s.latchChip < s.chips →
    ∀ p ∈ [(Instr.pktNoOp d, RegName.noOp), (.pktDigit0 d, .digit 0), (.pktDigit1 d, .digit 1), (.pktDigit2 d, .digit 2),
        (.pktDigit3 d, .digit 3), (.pktDigit4 d, .digit 4), (.pktDigit5 d, .digit 5), (.pktDigit6 d, .digit 6),
        (.pktDigit7 d, .digit 7), (.pktDecodeMode d, .decodeMode), (.pktIntensity d, .intensity),
        (.pktScanLimit d, .scanLimit), (.pktShutdown d, .shutdown), (.pktDisplayTest d, .displayTest)],
      ∃ t, exec p.1 s = .next t ∧ t = { s with chain := t.chain } ∧ t.chain.epoch = s.chain.epoch ∧
        (∀ k a, t.chipReg k a = if p.2 ≠ .noOp ∧ k = s.latchChip ∧ a = regAddr p.2 then d else s.chipReg k a) ∧
        ∀ j, t.chain.shiftByte j = if j = 2 * s.latchChip then regAddr p.2 else
          if j = 2 * s.latchChip + 1 then d else s.chain.shiftByte j

/-- R14, R39 (assumption log 14): a packet for a chip index the chain does not have stops with a fault. -/
def Obligations.PacketForAbsentChipFaults : Prop :=
  ∀ (s : State) (i : Instr), i.isPacket = true → s.chips ≤ s.latchChip → exec i s = .fault .noSuchChip

/-! ### The commands: what each does when its checks pass and the transport answers success -/

/-- R77: `writeRegister(register, value)` sends the pair to the active chip and answers `OK`; the records are untouched,
also when the register is `DecodeMode`, and the value is sent unchecked. An unknown register is `InvalidArgument` before
anything else. The word is R65's. -/
def Obligations.WrregWritesTheActiveChip : Prop :=
  ∀ (s : State) (v : Byte),
    (∀ r, s.active < s.chips → s.answerAt 0 = .success →
      ∃ t, exec (.wrreg (.known r) v) s = .next t ∧ Delivered s t s.active (regAddr r) v ∧ t.records = s.records) ∧
    (∀ r, s.active < s.chips → s.answerAt 0 = .transportError →
      ∃ t, exec (.wrreg (.known r) v) s = .next t ∧ Undelivered s t s.active (regAddr r) v) ∧
    (∀ a, exec (.wrreg (.unknown a) v) s = .next (s.answered (.error .invalidArgument))) ∧
    ∀ r, decodeCmd (cmdWord 0x01 (regAddr r) v 0x00) = .ok (.wrreg (.known r) v)

/-- R78: `writeRegister(register, value, targetChip)` does the same to the chip its operand names; `ACTIVE` is neither read
nor written; with the active chip as target it is `WRREG`. The lookup comes first, then the chip index. -/
def Obligations.WrregtWritesTheTargetChip : Prop :=
  ∀ (s : State) (v : Byte),
    (∀ r (k : Nat), k < s.chips → s.answerAt 0 = .success →
      ∃ t, exec (.wrregt (.known r) v k) s = .next t ∧ Delivered s t k (regAddr r) v ∧ t.records = s.records) ∧
    (∀ r (k : Nat), k < s.chips → s.answerAt 0 = .transportError →
      ∃ t, exec (.wrregt (.known r) v k) s = .next t ∧ Undelivered s t k (regAddr r) v) ∧
    (∀ a k, exec (.wrregt (.unknown a) v k) s = .next (s.answered (.error .invalidArgument))) ∧
    (∀ r (k : Int), ¬ (0 ≤ k ∧ k < s.chips) →
      exec (.wrregt (.known r) v k) s = .next (s.answered (.error .outOfRange))) ∧
    (∀ r, exec (.wrregt r v s.active) s = exec (.wrreg r v) s) ∧
    ∀ r (k : Byte), decodeCmd (cmdWord 0x02 (regAddr r) v k) = .ok (.wrregt (.known r) v k.toNat)

/-- R81, R82: `startup()` writes `0x01` and `shutdown()` writes `0x00` to the `Shutdown` register of the active chip, and of
no other chip; the only failure is the transport's. -/
def Obligations.StartupAndShutdownWriteTheShutdownRegister : Prop :=
  ∀ (s : State), s.active < s.chips → ∀ p ∈ [(Instr.startup, (0x01 : Byte)), (Instr.shutdown, 0x00)],
    (s.answerAt 0 = .success →
      ∃ t, exec p.1 s = .next t ∧ Delivered s t s.active (regAddr .shutdown) p.2 ∧ t.records = s.records) ∧
    (s.answerAt 0 = .transportError →
      ∃ t, exec p.1 s = .next t ∧ Undelivered s t s.active (regAddr .shutdown) p.2) ∧
    decodeCmd 0x10000000 = .ok .startup ∧ decodeCmd 0x11000000 = .ok .shutdown

/-- R83, R84: `startDisplayTest()` writes `0x01` and `stopDisplayTest()` writes `0x00` to the `DisplayTest` register of the
active chip. -/
def Obligations.DisplayTestCommandsWriteTheTestRegister : Prop :=
  ∀ (s : State), s.active < s.chips → ∀ p ∈ [(Instr.teston, (0x01 : Byte)), (Instr.testoff, 0x00)],
    (s.answerAt 0 = .success →
      ∃ t, exec p.1 s = .next t ∧ Delivered s t s.active (regAddr .displayTest) p.2 ∧ t.records = s.records) ∧
    (s.answerAt 0 = .transportError →
      ∃ t, exec p.1 s = .next t ∧ Undelivered s t s.active (regAddr .displayTest) p.2) ∧
    decodeCmd 0x12000000 = .ok .teston ∧ decodeCmd 0x13000000 = .ok .testoff

/-- R85, R86, R87: a decode-mode command whose transmit succeeds writes the mode byte to `DecodeMode` of the active chip,
and the record of that chip, and of no other, becomes valid with one mode a digit: the `modes` of `setDecodeMode`, all false
for `setDecodeNone`, all true for `setDecodeAll`. If the transmit fails no record is written (R88); a sequence of another
length than eight is `InvalidArgument` before any effect. -/
def Obligations.DecodeModeCommandsWriteRegisterAndRecord : Prop :=
  ∀ (s : State), s.active < s.chips → s.records.length = s.chips →
    (∀ (modes : List Bool) (i : Instr), modes.length = 8 →
      (i = .setdec modes ∨ (i = .decnone ∧ modes = List.replicate 8 false) ∨
        (i = .decall ∧ modes = List.replicate 8 true)) →
      ∃ t b, exec i s = .next t ∧ encodeSegments modes = .ok b ∧
        (s.answerAt 0 = .success → Delivered s t s.active (regAddr .decodeMode) b ∧
          t.records.length = s.records.length ∧ t.decv s.active = true ∧
          (∀ n, n < 8 → t.dec s.active n = modes.getD n false) ∧ ∀ k, k ≠ s.active → t.record k = s.record k) ∧
        (s.answerAt 0 = .transportError → Undelivered s t s.active (regAddr .decodeMode) b) ∧
        decodeCmd (cmdWord 0x20 0x00 b 0x00) = .ok (.setdec modes)) ∧
    (∀ modes : List Bool, modes.length ≠ 8 → exec (.setdec modes) s = .next (s.answered (.error .invalidArgument))) ∧
    encodeSegments (List.replicate 8 false) = .ok 0x00 ∧ encodeSegments (List.replicate 8 true) = .ok 0xFF ∧
    decodeCmd 0x21000000 = .ok .decnone ∧ decodeCmd 0x22000000 = .ok .decall

/-- R90: `setDigitSegments(n, segs)` with a digit number and eight segments writes the packed byte to the register of digit
`n` of the active chip, whatever the record says; a bad digit number is `OutOfRange`, another length `InvalidArgument`, in
that order, both before any effect. -/
def Obligations.SetsegWritesThePackedSegments : Prop :=
  ∀ (s : State) (segs : List Bool), s.active < s.chips →
    (∀ (n : Fin 8) b, encodeSegments segs = .ok b →
      (s.answerAt 0 = .success → ∃ t, exec (.setseg n.val segs) s = .next t ∧
        Delivered s t s.active (regAddr (.digit n)) b ∧ t.records = s.records) ∧
      (s.answerAt 0 = .transportError → ∃ t, exec (.setseg n.val segs) s = .next t ∧
        Undelivered s t s.active (regAddr (.digit n)) b)) ∧
    (∀ n : Int, ¬ (0 ≤ n ∧ n ≤ 7) → exec (.setseg n segs) s = .next (s.answered (.error .outOfRange))) ∧
    (∀ n : Fin 8, segs.length ≠ 8 → exec (.setseg n.val segs) s = .next (s.answered (.error .invalidArgument))) ∧
    ∀ a b : Byte, ∃ bits, encodeSegments bits = .ok b ∧
      decodeCmd (cmdWord 0x30 a b 0x00) = .ok (.setseg a.toNat bits)

/-- R91: `setDigitSegmentsByte(n, byte)` with a digit number writes the byte, whatever it is, to the register of digit `n`
of the active chip; a bad digit number is `OutOfRange` before any effect. -/
def Obligations.SetsegbWritesTheByte : Prop :=
  ∀ (s : State) (b : Byte), s.active < s.chips →
    (∀ n : Fin 8,
      (s.answerAt 0 = .success → ∃ t, exec (.setsegb n.val b) s = .next t ∧
        Delivered s t s.active (regAddr (.digit n)) b ∧ t.records = s.records) ∧
      (s.answerAt 0 = .transportError → ∃ t, exec (.setsegb n.val b) s = .next t ∧
        Undelivered s t s.active (regAddr (.digit n)) b)) ∧
    (∀ n : Int, ¬ (0 ≤ n ∧ n ≤ 7) → exec (.setsegb n b) s = .next (s.answered (.error .outOfRange))) ∧
    ∀ a : Byte, decodeCmd (cmdWord 0x31 a b 0x00) = .ok (.setsegb a.toNat b)

/-- R92: `setDigitSymbol(n, sym, dp)` with a digit number and a symbol of the table writes the symbol byte to the register
of digit `n` of the active chip, whatever the record says; a bad digit number is `OutOfRange`, a symbol outside the table
`InvalidArgument`, in that order, both before any effect. -/
def Obligations.SetsymWritesTheSymbolByte : Prop :=
  ∀ (s : State) (sym : List Char) (dp : Bool), s.active < s.chips →
    (∀ (n : Fin 8) b, encodeSymbol sym dp = .ok b →
      (s.answerAt 0 = .success → ∃ t, exec (.setsym n.val sym dp) s = .next t ∧
        Delivered s t s.active (regAddr (.digit n)) b ∧ t.records = s.records) ∧
      (s.answerAt 0 = .transportError → ∃ t, exec (.setsym n.val sym dp) s = .next t ∧
        Undelivered s t s.active (regAddr (.digit n)) b)) ∧
    (∀ n : Int, ¬ (0 ≤ n ∧ n ≤ 7) → exec (.setsym n sym dp) s = .next (s.answered (.error .outOfRange))) ∧
    (∀ n : Fin 8, (∀ c, sym = [c] → symCode c = none) →
      exec (.setsym n.val sym dp) s = .next (s.answered (.error .invalidArgument))) ∧
    ∀ a c : Byte, c.toNat < 128 →
      decodeCmd (cmdWord 0x32 a c (if dp then 0x01 else 0x00)) = .ok (.setsym a.toNat [Char.ofNat c.toNat] dp)

/-- R93 (D10: the order and the number of transactions): `clearDisplay()`, when the transport answers success eight times, makes eight transactions, digit 0 to digit 7,
each with `0x0F` for a digit the active chip's record says is in decode mode and `0x00` for another; it answers `OK`. The
eight digit registers of the active chip then hold those bytes; no other register and no record has changed. -/
def Obligations.ClearWritesEightBlankDigits : Prop :=
  ∀ (s : State), s.active < s.chips → s.Writable 8 →
    let blank : Nat → Byte := fun n => if s.decv s.active && s.dec s.active n then 0x0F else 0x00
    ∃ (t : State) (bufs : List (List Byte)), exec .clear s = .next t ∧ bufs.length = 8 ∧
      (∀ n : Fin 8, ∃ buf, bufs[n.val]? = some buf ∧ SlotPair s.chips s.active (regAddr (.digit n)) (blank n) buf) ∧
      t.history = s.history ++ bufs.map (.transaction · .success) ++ [.response .ok] ∧
      bufs.getLast? = some t.txbuf ∧
      (∀ n : Fin 8, t.chipReg s.active (regAddr (.digit n)) = blank n) ∧
      (∀ k a, (k ≠ s.active ∨ ∀ n, a ≠ regAddr (.digit n)) → t.chipReg k a = s.chipReg k a) ∧
      t.params = s.params ∧ t.active = s.active ∧ t.records = s.records ∧ t.inputs = s.inputs ∧
      t.latchChip = s.latchChip ∧ t.answers = s.answers.drop 8 ∧ t.txCount = s.txCount + 8 ∧
      t.chain.epoch = s.chain.epoch ∧ encodeSymbol [' '] false = .ok 0x0F ∧ decodeCmd 0x33000000 = .ok .clear

/-- R93, R108 (D10): if the transport fails the `m`-th write of `clearDisplay()` after `m` successes, the command stops
there with `TransportError`: `m` good transactions, one failed, none for the digits after it; the block's registers are as
they were and the whole chain is unspecified (R43). -/
def Obligations.ClearStopsAtTheFirstTransportError : Prop :=
  ∀ (s : State) (m : Fin 8), s.active < s.chips → s.Writable m → s.answerAt m = .transportError →
    let blank : Nat → Byte := fun n => if s.decv s.active && s.dec s.active n then 0x0F else 0x00
    ∃ (t : State) (bufs : List (List Byte)), exec .clear s = .next t ∧ bufs.length = m.val ∧
      (∀ n : Fin 8, n < m → ∃ buf, bufs[n.val]? = some buf ∧
        SlotPair s.chips s.active (regAddr (.digit n)) (blank n) buf) ∧
      SlotPair s.chips s.active (regAddr (.digit m)) (blank m) t.txbuf ∧
      t.history = s.history ++ bufs.map (.transaction · .success) ++
        [.transaction t.txbuf .transportError, .response (.error .transportError)] ∧
      t.active = s.active ∧ t.records = s.records ∧ t.params = s.params ∧ t.txCount = s.txCount + m + 1 ∧
      t.chain.Unknown (s.chain.epoch + 1)

/-- R94: `setDisplayIntensity(v)` with `0 ≤ v ≤ 15` writes `v` to `Intensity` of the active chip; any other `v` is
`OutOfRange` before any effect. -/
def Obligations.SetintWritesTheIntensityRegister : Prop :=
  ∀ (s : State) (v : Int), s.active < s.chips →
    (0 ≤ v ∧ v ≤ 15 → ∃ b : Byte, (b.toNat : Int) = v ∧
      (s.answerAt 0 = .success →
        ∃ t, exec (.setint v) s = .next t ∧ Delivered s t s.active (regAddr .intensity) b ∧ t.records = s.records) ∧
      (s.answerAt 0 = .transportError →
        ∃ t, exec (.setint v) s = .next t ∧ Undelivered s t s.active (regAddr .intensity) b)) ∧
    (¬ (0 ≤ v ∧ v ≤ 15) → exec (.setint v) s = .next (s.answered (.error .outOfRange))) ∧
    ∀ a : Byte, decodeCmd (cmdWord 0x40 a 0x00 0x00) = .ok (.setint a.toNat)

/-- R95: `setScanLimit(n)` with `1 ≤ n ≤ 8` writes `n - 1` to `ScanLimit` of the active chip; any other `n`, `0` and `9`
among them, is `OutOfRange` before any effect. -/
def Obligations.SetscanWritesOneLessThanTheDigitCount : Prop :=
  ∀ (s : State) (n : Int), s.active < s.chips →
    (1 ≤ n ∧ n ≤ 8 → ∃ b : Byte, (b.toNat : Int) = n - 1 ∧
      (s.answerAt 0 = .success →
        ∃ t, exec (.setscan n) s = .next t ∧ Delivered s t s.active (regAddr .scanLimit) b ∧ t.records = s.records) ∧
      (s.answerAt 0 = .transportError →
        ∃ t, exec (.setscan n) s = .next t ∧ Undelivered s t s.active (regAddr .scanLimit) b)) ∧
    (¬ (1 ≤ n ∧ n ≤ 8) → exec (.setscan n) s = .next (s.answered (.error .outOfRange))) ∧
    ∀ a : Byte, decodeCmd (cmdWord 0x41 a 0x00 0x00) = .ok (.setscan a.toNat)

/-- R96: `setActiveController(i)` with `0 ≤ i < CHIPS` makes `i` the active chip, answers `OK` and changes nothing else:
nothing is built, nothing sent, the records of all chips are kept. Any other `i` is `OutOfRange` and leaves the active
index as it was. -/
def Obligations.SetactSelectsTheActiveChip : Prop :=
  ∀ (s : State) (i : Int),
    (∀ k : Nat, i = k → k < s.chips → exec (.setact i) s = .next ({ s with active := k }.answered .ok)) ∧
    (¬ (0 ≤ i ∧ i < s.chips) → exec (.setact i) s = .next (s.answered (.error .outOfRange))) ∧
    ∀ a : Byte, decodeCmd (cmdWord 0x42 a 0x00 0x00) = .ok (.setact a.toNat)

/-- R69: the equalities of behaviour between commands, in response, transactions and state. -/
def Obligations.EquivalentCommandsBehaveAlike : Prop :=
  ∀ (s : State),
    exec .decnone s = exec (.setdec (List.replicate 8 false)) s ∧
    exec .decall s = exec (.setdec (List.replicate 8 true)) s ∧
    (∀ n segs b, encodeSegments segs = .ok b → exec (.setseg n segs) s = exec (.setsegb n b) s) ∧
    (∀ n sym dp b, encodeSymbol sym dp = .ok b → exec (.setsym n sym dp) s = exec (.setsegb n b) s) ∧
    exec .startup s = exec (.wrreg (.known .shutdown) 0x01) s ∧
    exec .shutdown s = exec (.wrreg (.known .shutdown) 0x00) s ∧
    exec .teston s = exec (.wrreg (.known .displayTest) 0x01) s ∧
    exec .testoff s = exec (.wrreg (.known .displayTest) 0x00) s ∧
    (∀ (n : Fin 8) b, exec (.setsegb n.val b) s = exec (.wrreg (.known (.digit n)) b) s) ∧
    (∀ v : Nat, v ≤ 15 → exec (.setint v) s = exec (.wrreg (.known .intensity) (BitVec.ofNat 8 v)) s) ∧
    ∀ n : Nat, 1 ≤ n → n ≤ 8 → exec (.setscan n) s = exec (.wrreg (.known .scanLimit) (BitVec.ofNat 8 (n - 1))) s

/-- The source's test of R86 and R87: after `setDecodeAll()`, `clearDisplay()` leaves `0x0F` in all eight digit registers of
the active chip, after `setDecodeNone()` it leaves `0x00`, whatever the record was, if every transmit succeeds. -/
def Obligations.ClearFollowsTheDecodeModeCommand : Prop :=
  ∀ (s : State), s.active < s.chips → s.records.length = s.chips → s.Writable 9 →
    ∀ p ∈ [(Instr.decall, (0x0F : Byte)), (Instr.decnone, 0x00)],
      ∃ t u, exec p.1 s = .next t ∧ exec .clear t = .next u ∧
        ∀ n : Fin 8, u.chipReg s.active (regAddr (.digit n)) = p.2

/-- R40: the same register write, successful twice, leaves the chain's registers as once. -/
def Obligations.RepeatedWriteIsIdempotent : Prop :=
  ∀ (s t u : State) (r : RegName) (v : Byte) (k : Nat), k < s.chips → s.Writable 2 →
    exec (.wrregt (.known r) v k) s = .next t → exec (.wrregt (.known r) v k) t = .next u →
    ∀ k' a, u.chipReg k' a = t.chipReg k' a

/-! ### Errors -/

/-- R103 (D7) with the causes of R98 and R99: a host command some operand of which is bad transmits nothing and changes no
state; its response is one of the two validation failures. -/
def Obligations.FailedValidationHasNoEffect : Prop :=
  ∀ (s : State) (i : Instr), i.hasInvalidOperand = true ∨ i.hasOperandOutOfRange s.chips = true →
    ∃ e, (e = .invalidArgument ∨ e = .outOfRange) ∧ exec i s = .next (s.answered (.error e))

/-- R98, R99: a command ends with `InvalidArgument` only for an operand R98 names, and with `OutOfRange` only for one R99
names; so a command that uses the active chip never fails the chip-index check. -/
def Obligations.ValidationFailuresHaveOnlyTheirCauses : Prop :=
  ∀ (s t : State) (i : Instr), s.active < s.chips → i.isPacket = false → exec i s = .next t →
    (t.history.getLast? = some (.response (.error .invalidArgument)) → i.hasInvalidOperand = true) ∧
    (t.history.getLast? = some (.response (.error .outOfRange)) → i.hasOperandOutOfRange s.chips = true)

/-- R104 (D8): with two bad operands the first in the signature is reported, and the register lookup comes before the chip
index. -/
def Obligations.FirstFailingOperandIsReported : Prop :=
  ∀ (s : State),
    (∀ n segs, ¬ (0 ≤ n ∧ n ≤ 7) → exec (.setseg n segs) s = .next (s.answered (.error .outOfRange))) ∧
    (∀ n sym dp, ¬ (0 ≤ n ∧ n ≤ 7) → exec (.setsym n sym dp) s = .next (s.answered (.error .outOfRange))) ∧
    (∀ a v k, exec (.wrregt (.unknown a) v k) s = .next (s.answered (.error .invalidArgument))) ∧
    (∀ n : Fin 8, ∀ segs, segs.length ≠ 8 →
      exec (.setseg n.val segs) s = .next (s.answered (.error .invalidArgument))) ∧
    (∀ n : Fin 8, ∀ sym dp, symbolCode sym = none →
      exec (.setsym n.val sym dp) s = .next (s.answered (.error .invalidArgument)))

/-- R97, R44, R110: every host command, in every state and with every operand, completes: it hands over at most eight
transactions, each answered as the transport answers next, and then gives exactly one response; it takes no input and
forgets nothing that was observed. It stops at the first failed transaction and then ends with `TransportError`; if it ends
with a validation failure it handed over none. -/
def Obligations.EveryCommandEndsWithOneResponse : Prop :=
  ∀ (s : State) (i : Instr), i.isPacket = false →
    ∃ (t : State) (txns : List (List Byte × Answer)) (r : Response), exec i s = .next t ∧
      t.history = s.history ++ txns.map (fun x => .transaction x.1 x.2) ++ [.response r] ∧ txns.length ≤ 8 ∧
      t.txCount = s.txCount + txns.length ∧ t.answers = s.answers.drop txns.length ∧ t.inputs = s.inputs ∧
      (r = .error .invalidArgument ∨ r = .error .outOfRange → txns = []) ∧
      (∀ j x, txns[j]? = some x → x.2 = s.answerAt j) ∧ (∀ x ∈ txns.dropLast, x.2 = .success) ∧
      ((∃ x ∈ txns, x.2 = .transportError) ↔ r = .error .transportError)

/-- R67, R101 (D13): the two-bit codes of the four outcomes. -/
def Obligations.ResponseCodesAreDistinct : Prop :=
  respCode .ok = 0b00 ∧ respCode (.error .invalidArgument) = 0b01 ∧ respCode (.error .outOfRange) = 0b10 ∧
  respCode (.error .transportError) = 0b11 ∧ ∀ r r', respCode r = respCode r' → r = r'

/-! ### The machine -/

/-- R28: every step keeps the invariant: the active index is in range, `TXBUF` is one well-formed transaction of `2 * CHIPS`
bytes, there is a record a chip, the chain's memories keep their canonical form and hold only named registers of existing
chips, and every transaction ever handed over carries one write and filler. -/
def Obligations.StepKeepsTheInvariant : Prop :=
  ∀ s t : State, s.Inv → step s = .next t → t.Inv

/-- R27, R115: every instance starts in the invariant, whatever its chip count; with no chip there is no instance (R6). That
the default construction with device handle 0 is `State.reset` is the model's choice of that handle (assumption log 2). -/
def Obligations.ConstructionEstablishesTheInvariant : Prop :=
  (∀ chips dev s, State.construct? chips dev = some s → s.Inv ∧ s.params = ⟨chips, dev⟩) ∧
  (∀ chips dev, State.construct? chips dev = none ↔ chips < 1) ∧ State.construct? 1 0 = some State.reset

/-- R27 (D3, D4), R116: the reset state: the active index 0, the buffer zero, every record unset, nothing transmitted. The
default chip count is R14's. -/
def Obligations.ResetLeavesTheSpecifiedState : Prop :=
  State.reset.chips = 1 ∧
  ∀ chips dev, 1 ≤ chips →
    let s := State.construct chips dev
    s.chips = chips ∧ s.active = 0 ∧ s.txbuf.length = 2 * chips ∧ (∀ b ∈ s.txbuf, b = 0) ∧
      s.records.length = chips ∧ (∀ k, s.decv k = false) ∧ s.history = [] ∧ s.txCount = 0 ∧
      ∀ k a, s.chipReg k a = Config.freeChipReg s.chain.epoch k a

/-- R16, R25: the active index is written by a successful `setActiveController` and by nothing else that can happen. -/
def Obligations.OnlySetactWritesTheActiveIndex : Prop :=
  ∀ (s t : State) (i : Instr), exec i s = .next t → t.active ≠ s.active →
    ∃ k : Nat, i = .setact k ∧ k < s.chips ∧ t.active = k

/-- R19, R122, (I5) of R28: the record of a chip is written only by the three decode-mode commands, only that of the active
chip, and only if the command ends with `OK`; a raw write of `DecodeMode` is none of them. -/
def Obligations.OnlyDecodeModeCommandsWriteRecords : Prop :=
  ∀ (s t : State) (i : Instr), exec i s = .next t → ∀ k, t.record k ≠ s.record k →
    k = s.active ∧ t.history.getLast? = some (.response .ok) ∧
      ((∃ modes, i = .setdec modes) ∨ i = .decnone ∨ i = .decall)

/-- R13, R14: no step changes the chip count or the device handle. -/
def Obligations.StepKeepsTheParameters : Prop :=
  ∀ s t : State, step s = .next t → t.params = s.params

/-- R37, R39, R127: a host command none of whose transmits fails changes no register of a chip other than the one it
addresses. -/
def Obligations.CommandsReachOnlyTheirTargetChip : Prop :=
  ∀ (s t : State) (i : Instr), s.active < s.chips → i.isPacket = false → s.Writable 8 → exec i s = .next t →
    ∀ (k : Nat) (a : Byte), (k : Int) ≠ i.targetChip s.active → t.chipReg k a = s.chipReg k a

/-- R18, R20: what `TXBUF` held, and a record's being unset or all no-decode, can never be told from outside: from states
that differ in nothing else, a step with the same input ends alike, and the states it ends in differ in nothing else
either. -/
def Obligations.DeadStateIsNeverObserved : Prop :=
  ∀ s t : State, Indistinguishable s t →
    (∀ s', step s = .next s' → ∃ t', step t = .next t' ∧ Indistinguishable s' t') ∧
    (∀ e, step s = .fault e → step t = .fault e) ∧ ∀ e, step s = .refused e → step t = .refused e

/-- R12, R44: the step takes the next input: a command word is decoded and the instruction executed, at a block whose
commands can come as words (R6, D6); a command at the abstract level is executed; a packet is executed by the chip that
latches it. The form of the inputs is the model's (assumption log 9, 10, 13). -/
def Obligations.StepRunsTheDecodedInstruction : Prop :=
  ∀ (s : State) (rest : List Input),
    (∀ w i, s.chips ≤ 256 → s.inputs = .cmd w :: rest → decodeCmd w = .ok i → step s = exec i { s with inputs := rest }) ∧
    (∀ i, s.inputs = .call i :: rest → i.isPacket = false → step s = exec i { s with inputs := rest }) ∧
    ∀ k w i, s.inputs = .latch k w :: rest → decodePkt w = .ok i →
      step s = exec i { s with inputs := rest, latchChip := k }

/-- R110, R97: no host command ever stops the machine. A step is refused only for want of a command (R12), for a packet
from outside that names no register (R53, assumption log 14) or is presented as a command (log 13), or for a command word at
a block of more chips than the binary level allows (R6, D6, log 17); it faults only for a packet latched by a chip the chain
does not have (log 14). -/
def Obligations.StepStopsOnlyByName : Prop :=
  ∀ s : State,
    (∀ f, step s = .fault f → ∃ k w rest, s.inputs = .latch k w :: rest ∧ s.chips ≤ k) ∧
    ∀ r, step s = .refused r →
      (r = .noCommand ∧ s.inputs = []) ∨
      (r = .unnamedPacketAddress ∧ ∃ k w rest, s.inputs = .latch k w :: rest ∧ ∀ n, regAddr n ≠ addrField w) ∨
      (r = .packetIsNoCommand ∧ ∃ i rest, s.inputs = .call i :: rest ∧ i.isPacket = true) ∨
      (r = .tooManyChipsForWords ∧ 256 < s.chips ∧ ∃ w rest, s.inputs = .cmd w :: rest)

/-- R6, R64 (D6, D12): the binary command level reaches every chip of a block of at most 256 chips, by `setActiveController`
and by `writeRegister` alike; no word of either names a chip index above 255, so it does not reach every chip of a larger
block. A larger block has no such level: a command word presented to it is refused (that it is a refusal is the model's
choice, assumption log 17), while its commands at the abstract level execute, since D6 puts no bound there. -/
def Obligations.WordLevelIsForAtMost256Chips : Prop :=
  (∀ chips k : Nat, k < chips → chips ≤ 256 → ∃ c : Byte,
    decodeCmd (cmdWord 0x42 c 0x00 0x00) = .ok (.setact k) ∧
    ∀ r v, decodeCmd (cmdWord 0x02 (regAddr r) v c) = .ok (.wrregt (.known r) v k)) ∧
  (∀ (w : CmdWord) (k : Int), 255 < k → decodeCmd w ≠ .ok (.setact k) ∧
    ∀ r v, decodeCmd w ≠ .ok (.wrregt r v k)) ∧
  (∀ (s : State) (w : CmdWord) (rest : List Input), s.inputs = .cmd w :: rest → 256 < s.chips →
    step s = .refused .tooManyChipsForWords) ∧
  ∀ (s : State) (i : Instr) (rest : List Input), s.inputs = .call i :: rest → i.isPacket = false →
    ∃ t, step s = .next t
end

