-- ==== Sys2Proof/Laws/Encoding.lean ====
section
/-! SUPPORT. The fields of the words (R51, R63), the bits of a byte (R70, R71), and the constant tables read backwards. -/

namespace Sys2Proof

/-! ### The fields of a word -/

@[simp] theorem opField_cmdWord (op a b c : Byte) : opField (cmdWord op a b c) = op := by
  apply BitVec.eq_of_getLsbD_eq; intro i hi
  simp only [opField, cmdWord, BitVec.getLsbD_append, BitVec.getLsbD_extractLsb']
  interval_cases i <;> simp

@[simp] theorem aField_cmdWord (op a b c : Byte) : aField (cmdWord op a b c) = a := by
  apply BitVec.eq_of_getLsbD_eq; intro i hi
  simp only [aField, cmdWord, BitVec.getLsbD_append, BitVec.getLsbD_extractLsb']
  interval_cases i <;> simp

@[simp] theorem bField_cmdWord (op a b c : Byte) : bField (cmdWord op a b c) = b := by
  apply BitVec.eq_of_getLsbD_eq; intro i hi
  simp only [bField, cmdWord, BitVec.getLsbD_append, BitVec.getLsbD_extractLsb']
  interval_cases i <;> simp

@[simp] theorem cField_cmdWord (op a b c : Byte) : cField (cmdWord op a b c) = c := by
  apply BitVec.eq_of_getLsbD_eq; intro i hi
  simp only [cField, cmdWord, BitVec.getLsbD_append, BitVec.getLsbD_extractLsb']
  interval_cases i <;> simp

/-- A command word is its four fields. -/
theorem cmdWord_fields (w : CmdWord) : cmdWord (opField w) (aField w) (bField w) (cField w) = w := by
  apply BitVec.eq_of_getLsbD_eq; intro i hi
  simp only [cmdWord, opField, aField, bField, cField, BitVec.getLsbD_append, BitVec.getLsbD_extractLsb']
  interval_cases i <;> simp

theorem cmdWord_inj {op a b c op' a' b' c' : Byte} :
    cmdWord op a b c = cmdWord op' a' b' c' ↔ op = op' ∧ a = a' ∧ b = b' ∧ c = c' := by
  constructor
  · intro h
    exact ⟨by simpa using congrArg opField h, by simpa using congrArg aField h, by simpa using congrArg bField h,
      by simpa using congrArg cField h⟩
  · rintro ⟨rfl, rfl, rfl, rfl⟩; rfl

/-- Masking a command word masks its fields. -/
theorem cmdWord_and (op a b c op' a' b' c' : Byte) :
    cmdWord op a b c &&& cmdWord op' a' b' c' = cmdWord (op &&& op') (a &&& a') (b &&& b') (c &&& c') := by
  apply BitVec.eq_of_getLsbD_eq; intro i hi
  simp only [cmdWord, BitVec.getLsbD_append, BitVec.getLsbD_and]
  split <;> (try split) <;> (try split) <;> rfl

@[simp] theorem addrField_pktWord (a d : Byte) : addrField (pktWord a d) = a := by
  apply BitVec.eq_of_getLsbD_eq; intro i hi
  simp only [addrField, pktWord, BitVec.getLsbD_append, BitVec.getLsbD_extractLsb']
  interval_cases i <;> simp

@[simp] theorem dataField_pktWord (a d : Byte) : dataField (pktWord a d) = d := by
  apply BitVec.eq_of_getLsbD_eq; intro i hi
  simp only [dataField, pktWord, BitVec.getLsbD_append, BitVec.getLsbD_extractLsb']
  interval_cases i <;> simp

/-- A packet is its two fields. -/
theorem pktWord_fields (w : Packet) : pktWord (addrField w) (dataField w) = w := by
  apply BitVec.eq_of_getLsbD_eq; intro i hi
  simp only [pktWord, addrField, dataField, BitVec.getLsbD_append, BitVec.getLsbD_extractLsb']
  interval_cases i <;> simp

/-! ### The bits of a byte -/

/-- The packing sum of eight elements has element `i` as its bit `i` (R70). -/
theorem bitsOfByte_byteOfBits {bits : List Bool} (h : bits.length = 8) : bitsOfByte (byteOfBits bits) = bits := by
  match bits, h with
  | [b0, b1, b2, b3, b4, b5, b6, b7], _ =>
    revert b0 b1 b2 b3 b4 b5 b6 b7; decide

theorem byteOfBits_bitsOfByte (b : Byte) : byteOfBits (bitsOfByte b) = b := by
  revert b; decide

@[simp] theorem bitsOfByte_length (b : Byte) : (bitsOfByte b).length = 8 := rfl

/-! ### The tables, read backwards -/

theorem regOf_regAddr (r : RegName) : regOf (regAddr r) = some r := by
  cases r with
  | digit n => revert n; decide
  | _ => decide

theorem regAddr_of_regOf {a : Byte} {r : RegName} (h : regOf a = some r) : regAddr r = a := by
  have := List.find?_some h
  simpa using this

theorem regAddr_inj {r r' : RegName} (h : regAddr r = regAddr r') : r = r' := by
  have := regOf_regAddr r
  rw [h, regOf_regAddr] at this
  exact (Option.some.inj this).symm

theorem opOf_opcode (o : CmdOp) : opOf (opcode o) = some o := by
  cases o <;> decide

theorem opcode_of_opOf {b : Byte} {o : CmdOp} (h : opOf b = some o) : opcode o = b := by
  have := List.find?_some h
  simpa using this

/-- Decoding a command word built from an opcode is decoding its row. -/
theorem decodeCmd_cmdWord (o : CmdOp) (a b c : Byte) : decodeCmd (cmdWord (opcode o) a b c) = decodeRow o a b c := by
  simp [decodeCmd, opOf_opcode]

theorem regOperand_regField {r : RegOperand} (h : r.wf = true) : regOperand (regField r) = r := by
  cases r with
  | known r => simp [regField, regOperand, regOf_regAddr]
  | unknown a =>
    have h' : regOf a = none := by simpa [RegOperand.wf] using h
    simp [regField, regOperand, h']

theorem intOperand_intField {n : Int} (h : fitsField n = true) : intOperand (intField n) = n := by
  have h' : 0 ≤ n ∧ n ≤ 255 := by simpa [fitsField] using h
  simp only [intOperand, intField, BitVec.toNat_ofNat]
  omega

end Sys2Proof
end

