-- ==== Sys2Proof/Laws/Memory.lean ====
section
/-! SUPPORT. The laws of sparse memories: a read after a write, and that every operation keeps the canonical form. -/

namespace Sys2Proof.Memory

theorem read_nil (key : Nat) : Memory.read [] key = none := rfl

theorem read_cons (k : Nat) (b : Byte) (rest : Memory) (key : Nat) :
    Memory.read ((k, b) :: rest) key = if key = k then some b else Memory.read rest key := by
  by_cases h : key = k
  · simp [Memory.read, List.lookup, h]
  · simp [Memory.read, List.lookup, h, beq_false_of_ne h]

/-- What a read gives after a write, wherever it looks. -/
theorem read_write (m : Memory) (key key' : Nat) (d : Byte) :
    (m.write key d).read key' = if key' = key then some d else m.read key' := by
  induction m with
  | nil => simp [Memory.write, read_cons]
  | cons c rest ih =>
    obtain ⟨k, b⟩ := c
    simp only [Memory.write]
    split
    · simp [read_cons]
    · split
      · simp only [read_cons]; split <;> simp_all
      · simp only [read_cons, ih]; split <;> split <;> simp_all

/-- The cells of a written memory: the new one, and cells that were there. -/
theorem mem_write {m : Memory} {key : Nat} {d : Byte} {c : Host.Cell} (h : c ∈ m.write key d) :
    c = (key, d) ∨ c ∈ m := by
  induction m with
  | nil => simpa [Memory.write] using h
  | cons x rest ih =>
    obtain ⟨k, b⟩ := x
    simp only [Memory.write] at h
    split at h
    · simpa using h
    · split at h
      · simp only [List.mem_cons] at h ⊢; tauto
      · simp only [List.mem_cons] at h ⊢
        rcases h with h | h
        · tauto
        · rcases ih h with h | h <;> tauto

/-- The canonical form, as a pairwise fact. -/
theorem wf_iff (m : Memory) : m.wf = true ↔ m.Pairwise (fun x y => x.1 < y.1) := by
  induction m with
  | nil => simp [Memory.wf]
  | cons x rest ih =>
    obtain ⟨k, b⟩ := x
    cases rest with
    | nil => simp [Memory.wf]
    | cons y rest =>
      obtain ⟨k', b'⟩ := y
      simp only [Memory.wf, Bool.and_eq_true, decide_eq_true_eq, ih, List.pairwise_cons, List.mem_cons]
      constructor
      · rintro ⟨h, h1, h2⟩
        refine ⟨?_, h1, h2⟩
        rintro z (rfl | hz)
        · exact h
        · exact h.trans (h1 z hz)
      · rintro ⟨h, h1, h2⟩
        exact ⟨h _ (Or.inl rfl), h1, h2⟩

theorem wf_nil : Memory.wf [] = true := rfl

/-- A write keeps the canonical form. -/
theorem write_wf {m : Memory} (h : m.wf = true) (key : Nat) (d : Byte) : (m.write key d).wf = true := by
  rw [wf_iff] at h ⊢
  induction m with
  | nil => simp [Memory.write]
  | cons x rest ih =>
    obtain ⟨k, b⟩ := x
    simp only [List.pairwise_cons] at h
    simp only [Memory.write]
    split
    · rename_i hk
      simp only [List.pairwise_cons, List.mem_cons]
      refine ⟨?_, h.1, h.2⟩
      rintro z (rfl | hz)
      · exact hk
      · exact hk.trans (h.1 z hz)
    · split
      · rename_i hk; subst hk
        exact List.pairwise_cons.2 ⟨h.1, h.2⟩
      · refine List.pairwise_cons.2 ⟨fun z hz => ?_, ih h.2⟩
        rcases mem_write hz with rfl | hz
        · show k < key; omega
        · exact h.1 z hz

/-- The keys of a list of bytes laid out from `start`. -/
theorem mem_ofBytes {start : Nat} {bs : List Byte} {c : Host.Cell} (h : c ∈ Memory.ofBytes start bs) :
    start ≤ c.1 ∧ c.1 < start + bs.length := by
  induction bs generalizing start with
  | nil => simp [Memory.ofBytes] at h
  | cons b bs ih =>
    simp only [Memory.ofBytes, List.mem_cons] at h
    rcases h with rfl | h
    · simp
    · have := ih h; simp only [List.length_cons]; omega

theorem ofBytes_wf (start : Nat) (bs : List Byte) : (Memory.ofBytes start bs).wf = true := by
  rw [wf_iff]
  induction bs generalizing start with
  | nil => simp [Memory.ofBytes]
  | cons b bs ih =>
    refine List.pairwise_cons.2 ⟨fun z hz => ?_, ih _⟩
    have := (mem_ofBytes hz).1; show start < z.1; omega

/-- What a list of bytes laid out from `start` reads as. -/
theorem read_ofBytes (start : Nat) (bs : List Byte) (j : Nat) :
    (Memory.ofBytes start bs).read (start + j) = bs[j]? := by
  induction bs generalizing start j with
  | nil => simp [Memory.ofBytes, read_nil]
  | cons b bs ih =>
    simp only [Memory.ofBytes, read_cons]
    cases j with
    | zero => simp
    | succ j =>
      have := ih (start + 1) j
      rw [show start + (j + 1) = start + 1 + j by omega, if_neg (by omega), this]; simp

end Sys2Proof.Memory
end

