-- ==== Sys2Proof/Laws/State.lean ====
section
/-! SUPPORT. What each state update leaves as it was and what it writes, one lemma a field, all by `rfl`. -/

namespace Sys2Proof.Machine

@[simp] theorem buildTxn_params (s : State) (k : Nat) (a d : Byte) : (s.buildTxn k a d).params = s.params := rfl
@[simp] theorem buildTxn_active (s : State) (k : Nat) (a d : Byte) : (s.buildTxn k a d).active = s.active := rfl
@[simp] theorem buildTxn_txbuf (s : State) (k : Nat) (a d : Byte) : (s.buildTxn k a d).txbuf = txnBytes s.chips k a d := rfl
@[simp] theorem buildTxn_records (s : State) (k : Nat) (a d : Byte) : (s.buildTxn k a d).records = s.records := rfl
@[simp] theorem buildTxn_chain (s : State) (k : Nat) (a d : Byte) : (s.buildTxn k a d).chain = s.chain := rfl
@[simp] theorem buildTxn_inputs (s : State) (k : Nat) (a d : Byte) : (s.buildTxn k a d).inputs = s.inputs := rfl
@[simp] theorem buildTxn_answers (s : State) (k : Nat) (a d : Byte) : (s.buildTxn k a d).answers = s.answers := rfl
@[simp] theorem buildTxn_txCount (s : State) (k : Nat) (a d : Byte) : (s.buildTxn k a d).txCount = s.txCount := rfl
@[simp] theorem buildTxn_latchChip (s : State) (k : Nat) (a d : Byte) : (s.buildTxn k a d).latchChip = s.latchChip := rfl
@[simp] theorem buildTxn_history (s : State) (k : Nat) (a d : Byte) : (s.buildTxn k a d).history = s.history := rfl
@[simp] theorem buildTxn_chips (s : State) (k : Nat) (a d : Byte) : (s.buildTxn k a d).chips = s.chips := rfl

@[simp] theorem commitDecode_params (s : State) (k : Nat) (b : Byte) : (s.commitDecode k b).params = s.params := rfl
@[simp] theorem commitDecode_active (s : State) (k : Nat) (b : Byte) : (s.commitDecode k b).active = s.active := rfl
@[simp] theorem commitDecode_txbuf (s : State) (k : Nat) (b : Byte) : (s.commitDecode k b).txbuf = s.txbuf := rfl
@[simp] theorem commitDecode_records (s : State) (k : Nat) (b : Byte) : (s.commitDecode k b).records = s.records.set k { valid := true, modes := b } := rfl
@[simp] theorem commitDecode_chain (s : State) (k : Nat) (b : Byte) : (s.commitDecode k b).chain = s.chain := rfl
@[simp] theorem commitDecode_inputs (s : State) (k : Nat) (b : Byte) : (s.commitDecode k b).inputs = s.inputs := rfl
@[simp] theorem commitDecode_answers (s : State) (k : Nat) (b : Byte) : (s.commitDecode k b).answers = s.answers := rfl
@[simp] theorem commitDecode_txCount (s : State) (k : Nat) (b : Byte) : (s.commitDecode k b).txCount = s.txCount := rfl
@[simp] theorem commitDecode_latchChip (s : State) (k : Nat) (b : Byte) : (s.commitDecode k b).latchChip = s.latchChip := rfl
@[simp] theorem commitDecode_history (s : State) (k : Nat) (b : Byte) : (s.commitDecode k b).history = s.history := rfl
@[simp] theorem commitDecode_chips (s : State) (k : Nat) (b : Byte) : (s.commitDecode k b).chips = s.chips := rfl

@[simp] theorem transmit_params (s : State) : (s.transmit).params = s.params := rfl
@[simp] theorem transmit_active (s : State) : (s.transmit).active = s.active := rfl
@[simp] theorem transmit_txbuf (s : State) : (s.transmit).txbuf = s.txbuf := rfl
@[simp] theorem transmit_records (s : State) : (s.transmit).records = s.records := rfl
@[simp] theorem transmit_chain (s : State) : (s.transmit).chain = s.chain.receive s.chips s.txbuf (s.answerAt 0) := rfl
@[simp] theorem transmit_inputs (s : State) : (s.transmit).inputs = s.inputs := rfl
@[simp] theorem transmit_answers (s : State) : (s.transmit).answers = s.answers.tail := rfl
@[simp] theorem transmit_txCount (s : State) : (s.transmit).txCount = s.txCount + 1 := rfl
@[simp] theorem transmit_latchChip (s : State) : (s.transmit).latchChip = s.latchChip := rfl
@[simp] theorem transmit_history (s : State) : (s.transmit).history = s.history ++ [.transaction s.txbuf (s.answerAt 0)] := rfl
@[simp] theorem transmit_chips (s : State) : (s.transmit).chips = s.chips := rfl

@[simp] theorem chipWrite_shift (c : Chain) (k : Nat) (a d : Byte) : (c.chipWrite k a d).shift = c.shift := by
  unfold Chain.chipWrite; split <;> rfl

@[simp] theorem chipWrite_epoch (c : Chain) (k : Nat) (a d : Byte) : (c.chipWrite k a d).epoch = c.epoch := by
  unfold Chain.chipWrite; split <;> rfl

@[simp] theorem latch_shift (c : Chain) (k : Nat) : (c.latch k).shift = c.shift := chipWrite_shift ..

@[simp] theorem latch_epoch (c : Chain) (k : Nat) : (c.latch k).epoch = c.epoch := chipWrite_epoch ..

@[simp] theorem shiftIn_regs (c : Chain) (buf : List Byte) : (c.shiftIn buf).regs = c.regs := rfl
@[simp] theorem shiftIn_shift (c : Chain) (buf : List Byte) : (c.shiftIn buf).shift = Memory.ofBytes 0 buf := rfl
@[simp] theorem shiftIn_epoch (c : Chain) (buf : List Byte) : (c.shiftIn buf).epoch = c.epoch := rfl
@[simp] theorem shiftPair_regs (c : Chain) (k : Nat) (a d : Byte) : (c.shiftPair k a d).regs = c.regs := rfl
@[simp] theorem shiftPair_epoch (c : Chain) (k : Nat) (a d : Byte) : (c.shiftPair k a d).epoch = c.epoch := rfl
@[simp] theorem unspecified_regs (c : Chain) : c.unspecified.regs = [] := rfl
@[simp] theorem unspecified_shift (c : Chain) : c.unspecified.shift = [] := rfl
@[simp] theorem unspecified_epoch (c : Chain) : c.unspecified.epoch = c.epoch + 1 := rfl

@[simp] theorem strobe_shift (c : Chain) (n : Nat) : (c.strobe n).shift = c.shift := by
  induction n with
  | zero => rfl
  | succ n ih => simp [Chain.strobe, ih]

@[simp] theorem strobe_epoch (c : Chain) (n : Nat) : (c.strobe n).epoch = c.epoch := by
  induction n with
  | zero => rfl
  | succ n ih => simp [Chain.strobe, ih]

end Sys2Proof.Machine
end

