-- ==== Sys2Proof/Laws/Ops.lean ====
section
/-! SUPPORT. Once for each shared operation, everything it can do: the chain's latching, the transaction builder, the
transmit, the register write, and how a command ends. -/

namespace Sys2Proof.Machine

/-! ### The chain -/

theorem chipKey_inj {k k' : Nat} {a a' : Byte} : chipKey k a = chipKey k' a' ↔ k = k' ∧ a = a' := by
  unfold chipKey
  have h := a.isLt
  have h' := a'.isLt
  constructor
  · intro e
    refine ⟨by omega, BitVec.eq_of_toNat_eq (by omega)⟩
  · rintro ⟨rfl, rfl⟩; rfl

theorem regAddr_noOp : regAddr .noOp = 0 := rfl

/-- What every register holds after `ChipWrite` (R39). -/
theorem reg_chipWrite (c : Chain) (k : Nat) (a d : Byte) (k' : Nat) (a' : Byte) :
    (c.chipWrite k a d).reg k' a' = if a ≠ 0 ∧ k' = k ∧ a' = a then d else c.reg k' a' := by
  unfold Chain.chipWrite
  rw [regAddr_noOp]
  by_cases h : a = 0
  · simp [h]
  · simp only [h, if_false, Chain.reg, Memory.read_write, chipKey_inj, ne_eq, not_false_eq_true, true_and]
    split <;> rfl

/-- The bytes the chips hold after a transaction was shifted in. -/
theorem shiftByte_shiftIn (c : Chain) (buf : List Byte) {j : Nat} (h : j < buf.length) :
    (c.shiftIn buf).shiftByte j = buf.getD j 0 := by
  have := Memory.read_ofBytes 0 buf j
  rw [Nat.zero_add] at this
  simp [Chain.shiftByte, this, List.getD_eq_getElem?_getD, List.getElem?_eq_getElem h]

theorem shiftByte_congr {c c' : Chain} (h : c'.shift = c.shift) (h' : c'.epoch = c.epoch) (j : Nat) :
    c'.shiftByte j = c.shiftByte j := by
  unfold Chain.shiftByte; rw [h, h']

@[simp] theorem shiftByte_strobe (c : Chain) (n j : Nat) : (c.strobe n).shiftByte j = c.shiftByte j :=
  shiftByte_congr (strobe_shift c n) (strobe_epoch c n) j

/-- What every register holds after the load strobe: chip `k` took the pair it held (R39). -/
theorem reg_strobe (c : Chain) (n k : Nat) (a : Byte) :
    (c.strobe n).reg k a =
      if k < n ∧ c.shiftByte (2 * k) ≠ 0 ∧ a = c.shiftByte (2 * k) then c.shiftByte (2 * k + 1) else c.reg k a := by
  induction n with
  | zero => simp [Chain.strobe]
  | succ n ih =>
    simp only [Chain.strobe, Chain.latch, reg_chipWrite, shiftByte_strobe, ih]
    by_cases hk : k = n
    · subst hk
      by_cases h : c.shiftByte (2 * k) ≠ 0 ∧ a = c.shiftByte (2 * k) <;> simp [h]
    · by_cases h : k < n
      · simp [hk, h, Nat.lt_succ_of_lt h]
      · have : ¬ k < n + 1 := by omega
        simp [hk, h, this]

/-! ### The transaction -/

@[simp] theorem fillerSlots_length (n : Nat) : (fillerSlots n).length = 2 * n := by
  induction n with
  | zero => rfl
  | succ n ih => simp [fillerSlots, ih]; omega

theorem fillerSlots_eq (n : Nat) : fillerSlots n = List.replicate (2 * n) 0 := by
  induction n with
  | zero => rfl
  | succ n ih => rw [show 2 * (n + 1) = 2 * n + 1 + 1 by omega, List.replicate_succ, List.replicate_succ, ← ih]; rfl

/-- `BuildTxn` makes a transaction of the shape R79 gives. -/
theorem txnBytes_slotPair (chips k : Nat) (a d : Byte) : SlotPair chips k a d (txnBytes chips k a d) := by
  constructor
  · simp [txnBytes]
  · intro j hj
    simp only [txnBytes, fillerSlots_eq, List.getElem?_set, List.length_set, List.length_replicate,
      List.getElem?_replicate]
    by_cases h1 : j = 2 * k + 1
    · subst h1; simp [hj]
    · by_cases h2 : j = 2 * k
      · subst h2; simp [hj]
      · simp [h1, h2, hj, Ne.symm h1, Ne.symm h2]

/-- A buffer is determined by its shape. -/
theorem SlotPair.unique {chips k : Nat} {a d : Byte} {buf buf' : List Byte} (h : SlotPair chips k a d buf)
    (h' : SlotPair chips k a d buf') : buf = buf' := by
  apply List.ext_getElem?
  intro j
  by_cases hj : j < 2 * chips
  · rw [h.bytes j hj, h'.bytes j hj]
  · rw [List.getElem?_eq_none (by have := h.length; omega), List.getElem?_eq_none (by have := h'.length; omega)]

theorem SlotPair.getD {chips k : Nat} {a d : Byte} {buf : List Byte} (h : SlotPair chips k a d buf) {j : Nat}
    (hj : j < 2 * chips) : buf.getD j 0 = if j = 2 * k then a else if j = 2 * k + 1 then d else 0 := by
  rw [List.getD_eq_getElem?_getD, h.bytes j hj]; rfl

/-- The buffer of zeros has the shape of a write of `(NoOp, 0x00)`. -/
theorem txnShape_zero {chips : Nat} (h : 1 ≤ chips) : TxnShape chips (List.replicate (2 * chips) 0) := by
  refine ⟨0, .noOp, 0, h, by simp, fun j hj => ?_⟩
  simp [hj, regAddr_noOp]

theorem txnShape_txnBytes {chips k : Nat} (h : k < chips) (r : RegName) (v : Byte) :
    TxnShape chips (txnBytes chips k (regAddr r) v) :=
  ⟨k, r, v, h, txnBytes_slotPair _ _ _ _⟩

/-- A successful transaction is one `ChipWrite`, to the target of its slot; every other chip got the no-op (R39). -/
theorem strobe_slotPair {chips k : Nat} {a d : Byte} {buf : List Byte} (h : SlotPair chips k a d buf) (c : Chain)
    {n : Nat} (hn : n ≤ chips) :
    (c.shiftIn buf).strobe n = if k < n then (c.shiftIn buf).chipWrite k a d else c.shiftIn buf := by
  induction n with
  | zero => simp [Chain.strobe]
  | succ n ih =>
    have e0 : ((c.shiftIn buf).strobe n).shiftByte (2 * n) = if n = k then a else 0 := by
      rw [shiftByte_strobe, shiftByte_shiftIn _ _ (by have := h.length; omega), h.getD (by omega)]
      by_cases hk : n = k
      · simp [hk]
      · rw [if_neg (by omega), if_neg (by omega), if_neg hk]
    have e1 : n = k → ((c.shiftIn buf).strobe n).shiftByte (2 * n + 1) = d := by
      rintro rfl
      rw [shiftByte_strobe, shiftByte_shiftIn _ _ (by have := h.length; omega), h.getD (by omega)]
      simp
    simp only [Chain.strobe, Chain.latch, e0]
    by_cases hk : n = k
    · rw [e1 hk, ih (by omega)]
      subst hk
      simp
    · rw [if_neg hk, ih (by omega)]
      by_cases h2 : k < n
      · simp [h2, Nat.lt_succ_of_lt h2, Chain.chipWrite, regAddr_noOp]
      · have : ¬ k < n + 1 := by omega
        simp [h2, this, Chain.chipWrite, regAddr_noOp]

theorem receive_success {chips k : Nat} {a d : Byte} {buf : List Byte} (h : SlotPair chips k a d buf) (hk : k < chips)
    (c : Chain) : c.receive chips buf .success = (c.shiftIn buf).chipWrite k a d := by
  simp [Chain.receive, strobe_slotPair h c le_rfl, hk]

theorem receive_transportError (chips : Nat) (buf : List Byte) (c : Chain) :
    c.receive chips buf .transportError = c.unspecified := rfl

/-! ### How a command ends -/

@[simp] theorem respond_eq (t : State) (r : Response) : respond (t, r) = .next (t.answered r) := rfl

@[simp] theorem withOperand_ok {α : Type} (x : α) (s : State) (f : α → Reply) : withOperand (.ok x) s f = f x := rfl

@[simp] theorem withOperand_error {α : Type} (e : ErrorKind) (s : State) (f : α → Reply) :
    withOperand (.error e) s f = (s, .error e) := rfl

@[simp] theorem andThen_ok (t : State) (f : State → Reply) : Reply.andThen (t, .ok) f = f t := rfl

@[simp] theorem andThen_error (t : State) (e : ErrorKind) (f : State → Reply) :
    Reply.andThen (t, .error e) f = (t, .error e) := rfl

/-! ### The operand checks -/

theorem chipOperand_ok {chips k : Nat} (h : k < chips) : chipOperand chips (k : Int) = .ok k := by
  simp [chipOperand, h]

theorem chipOperand_error {chips : Nat} {k : Int} (h : ¬ (0 ≤ k ∧ k < chips)) :
    chipOperand chips k = .error .outOfRange := by
  simp only [chipOperand, if_neg h]

theorem digitOperand_ok (n : Fin 8) : digitOperand (n.val : Int) = .ok (.digit n) := by
  revert n; decide

theorem digitOperand_error {n : Int} (h : ¬ (0 ≤ n ∧ n ≤ 7)) : digitOperand n = .error .outOfRange := by
  simp only [digitOperand, if_neg h]

/-! ### The register write -/

/-- The answers still to come, after one was used. -/
theorem answerAt_transmit (s : State) (j : Nat) : s.transmit.answerAt j = s.answerAt (j + 1) := by
  simp only [State.answerAt, transmit_answers, transmit_txCount, List.getElem?_tail]
  rw [show s.txCount + 1 + j = s.txCount + (j + 1) by omega]

@[simp] theorem answerAt_buildTxn (s : State) (k : Nat) (a d : Byte) (j : Nat) :
    (s.buildTxn k a d).answerAt j = s.answerAt j := rfl

@[simp] theorem answerAt_answered (s : State) (r : Response) (j : Nat) : (s.answered r).answerAt j = s.answerAt j := rfl

/-- Everything `WriteRegister` does for a chip index that passed its check: the state it reaches and its response. -/
theorem sendTo_eq (s : State) (k : Nat) (r : RegName) (v : Byte) :
    s.sendTo k r v = ((s.buildTxn k (regAddr r) v).transmit,
      match s.answerAt 0 with | .success => .ok | .transportError => .error .transportError) := by
  unfold State.sendTo afterTransmit
  cases s.answerAt 0 <;> rfl

theorem writeRegister_ok (s : State) (r : RegName) (v : Byte) {k : Nat} (h : k < s.chips) :
    s.writeRegister r v k = s.sendTo k r v := by
  simp [State.writeRegister, chipOperand_ok h]

theorem writeRegister_outOfRange (s : State) (r : RegName) (v : Byte) {k : Int} (h : ¬ (0 ≤ k ∧ k < s.chips)) :
    s.writeRegister r v k = (s, .error .outOfRange) := by
  simp [State.writeRegister, chipOperand_error h]

theorem writeActive_eq (s : State) (r : RegName) (v : Byte) (h : s.active < s.chips) :
    s.writeActive r v = s.sendTo s.active r v := writeRegister_ok s r v h

/-- The transmit of a built transaction: the parts no answer changes. -/
theorem oneTransmit_sent (s : State) (k : Nat) (a d : Byte) : OneTransmit s (s.buildTxn k a d).transmit :=
  ⟨rfl, rfl, rfl, rfl, rfl, rfl⟩

/-- The chain after the transmit of a built transaction. -/
theorem chain_sent (s : State) {k : Nat} (h : k < s.chips) (a d : Byte) :
    (s.buildTxn k a d).transmit.chain =
      match s.answerAt 0 with
      | .success => (s.chain.shiftIn (txnBytes s.chips k a d)).chipWrite k a d
      | .transportError => s.chain.unspecified := by
  simp only [transmit_chain, buildTxn_chain, buildTxn_chips, buildTxn_txbuf, answerAt_buildTxn]
  cases s.answerAt 0 with
  | success => exact receive_success (txnBytes_slotPair _ _ a d) h _
  | transportError => rfl

/-- A successful register write, seen from outside (R39, R76). -/
theorem delivered_sent (s : State) {k : Nat} (hk : k < s.chips) (a d : Byte) (h : s.answerAt 0 = .success) :
    Delivered s ((s.buildTxn k a d).transmit.answered .ok) k a d where
  toOneTransmit := ⟨rfl, rfl, rfl, rfl, rfl, rfl⟩
  txbuf := txnBytes_slotPair s.chips k a d
  history := by simp [State.answered, h]
  chipReg k' a' := by
    show (s.buildTxn k a d).transmit.chain.reg k' a' = _
    rw [chain_sent s hk, h]
    exact reg_chipWrite _ k a d k' a'
  shift j hj := by
    show (s.buildTxn k a d).transmit.chain.shiftByte j = (txnBytes s.chips k a d).getD j 0
    rw [chain_sent s hk, h]
    rw [show _ = (s.chain.shiftIn (txnBytes s.chips k a d)).shiftByte j from
      shiftByte_congr (chipWrite_shift ..) (chipWrite_epoch ..) j]
    exact shiftByte_shiftIn _ _ (by rw [(txnBytes_slotPair s.chips k a d).length]; exact hj)
  epoch := by
    show (s.buildTxn k a d).transmit.chain.epoch = _
    rw [chain_sent s hk, h]; simp

/-- A failed register write, seen from outside (R100, R107). -/
theorem undelivered_sent (s : State) (k : Nat) (a d : Byte) (h : s.answerAt 0 = .transportError) :
    Undelivered s ((s.buildTxn k a d).transmit.answered (.error .transportError)) k a d where
  toOneTransmit := ⟨rfl, rfl, rfl, rfl, rfl, rfl⟩
  records := rfl
  txbuf := txnBytes_slotPair s.chips k a d
  history := by simp [State.answered, h]

/-- After a failed transmit nothing is known of the chain (R43). -/
theorem unspecified_unknown (c : Chain) : c.unspecified.Unknown (c.epoch + 1) := ⟨rfl, fun _ _ => rfl, fun _ => rfl⟩

/-- `WriteRegister` on the active chip, answered success: the reply, and what it leaves. -/
theorem writeActive_success (s : State) (r : RegName) (v : Byte) (ha : s.active < s.chips) (h : s.answerAt 0 = .success) :
    s.writeActive r v = ((s.buildTxn s.active (regAddr r) v).transmit, .ok) := by
  rw [writeActive_eq s r v ha, sendTo_eq, h]

/-- `WriteRegister` on the active chip, failed by the transport. -/
theorem writeActive_transportError (s : State) (r : RegName) (v : Byte) (ha : s.active < s.chips)
    (h : s.answerAt 0 = .transportError) :
    s.writeActive r v = ((s.buildTxn s.active (regAddr r) v).transmit, .error .transportError) := by
  rw [writeActive_eq s r v ha, sendTo_eq, h]

/-- A step of `clearDisplay` never fails to encode its value (R93). -/
theorem clearValue_eq (s : State) (n : Fin 8) :
    clearValue s n = .ok (if s.decv s.active && s.dec s.active n then 0x0F else 0x00) := by
  unfold clearValue; split <;> rfl

/-! ### The decode-mode record -/

/-- What every record is after `CommitDecode` (R88). -/
theorem record_commitDecode (s : State) {k : Nat} (h : k < s.records.length) (b : Byte) (j : Nat) :
    (s.commitDecode k b).record j = if j = k then { valid := true, modes := b } else s.record j := by
  simp only [State.record, commitDecode_records, List.getD_eq_getElem?_getD, List.getElem?_set]
  by_cases hj : j = k
  · subst hj; simp [h]
  · simp [hj, Ne.symm hj]

@[simp] theorem record_sent (s : State) (k : Nat) (a d : Byte) (j : Nat) :
    (s.buildTxn k a d).transmit.record j = s.record j := rfl

/-- A decode-mode command whose transmit succeeds: the write, then the record (R85 to R88). -/
theorem sendDecode_success (s : State) (b : Byte) (ha : s.active < s.chips) (h : s.answerAt 0 = .success) :
    s.sendDecode b = (((s.buildTxn s.active (regAddr .decodeMode) b).transmit).commitDecode s.active b, .ok) := by
  simp [State.sendDecode, writeActive_success s _ b ha h, done]

/-- A decode-mode command whose transmit fails: no record is written (R88). -/
theorem sendDecode_transportError (s : State) (b : Byte) (ha : s.active < s.chips)
    (h : s.answerAt 0 = .transportError) :
    s.sendDecode b = ((s.buildTxn s.active (regAddr .decodeMode) b).transmit, .error .transportError) := by
  simp [State.sendDecode, writeActive_transportError s _ b ha h]

/-! ### Clearing digits -/

/-- The byte `clearDisplay` sends to digit `n` of the active chip (R93). -/
def blankByte (s : State) (n : Nat) : Byte := if s.decv s.active && s.dec s.active n then 0x0F else 0x00

@[simp] theorem blankByte_sent (s : State) (k : Nat) (a d : Byte) (n : Nat) :
    blankByte (s.buildTxn k a d).transmit n = blankByte s n := rfl

/-- One digit cleared, the transmit answered success: the others follow. -/
theorem clearDigits_cons_success (n : Fin 8) (ns : List (Fin 8)) (s : State) (ha : s.active < s.chips)
    (h : s.answerAt 0 = .success) :
    clearDigits (n :: ns) s =
      clearDigits ns (s.buildTxn s.active (regAddr (.digit n)) (blankByte s n)).transmit := by
  simp only [clearDigits, clearValue_eq, withOperand_ok]
  rw [writeActive_success s _ _ ha h, andThen_ok]; rfl

/-- One digit cleared, the transmit failed: the command ends there. -/
theorem clearDigits_cons_transportError (n : Fin 8) (ns : List (Fin 8)) (s : State) (ha : s.active < s.chips)
    (h : s.answerAt 0 = .transportError) :
    clearDigits (n :: ns) s =
      ((s.buildTxn s.active (regAddr (.digit n)) (blankByte s n)).transmit, .error .transportError) := by
  simp only [clearDigits, clearValue_eq, withOperand_ok]
  rw [writeActive_transportError s _ _ ha h, andThen_error]; rfl

/-! ### A packet latched by a chip -/

/-- The instruction of a register name is executed by the shared latch operation. -/
theorem exec_packetInstr (r : RegName) (d : Byte) (s : State) : exec (packetInstr r d) s = latchPacket r d s := by
  cases r with
  | digit n => revert n; simp [Fin.forall_fin_succ]; exact ⟨rfl, rfl, rfl, rfl, rfl, rfl, rfl, rfl⟩
  | _ => rfl

theorem shiftByte_shiftPair (c : Chain) (k : Nat) (a d : Byte) (j : Nat) :
    (c.shiftPair k a d).shiftByte j = if j = 2 * k then a else if j = 2 * k + 1 then d else c.shiftByte j := by
  simp only [Chain.shiftByte, Chain.shiftPair, Memory.read_write]
  by_cases h : j = 2 * k + 1
  · simp [h]
  · by_cases h2 : j = 2 * k <;> simp [h, h2]

/-- The chain after a latched packet: the pair is in the chip, and its register took the data byte. -/
theorem latch_shiftPair (c : Chain) (k : Nat) (a d : Byte) :
    (c.shiftPair k a d).latch k = (c.shiftPair k a d).chipWrite k a d := by
  simp [Chain.latch, shiftByte_shiftPair]

theorem latchPacket_next (r : RegName) (d : Byte) (s : State) (h : s.latchChip < s.chips) :
    latchPacket r d s =
      .next { s with chain := (s.chain.shiftPair s.latchChip (regAddr r) d).chipWrite s.latchChip (regAddr r) d } := by
  simp [latchPacket, h, latch_shiftPair]

theorem latchPacket_fault (r : RegName) (d : Byte) (s : State) (h : s.chips ≤ s.latchChip) :
    latchPacket r d s = .fault .noSuchChip := if_neg (Nat.not_lt.2 h)

/-! ### The wire -/

@[simp] theorem transmitCalls_append (es fs : List Event) :
    transmitCalls (es ++ fs) = transmitCalls es + transmitCalls fs := by
  induction es with
  | nil => simp [transmitCalls]
  | cons e es ih => cases e <;> simp [transmitCalls, ih]; omega

/-- The wire stream of a run that goes on: the later calls are numbered after the earlier ones. -/
theorem wireStream_append (n : Nat) (es fs : List Event) :
    wireStream n (es ++ fs) = wireStream n es ++ wireStream (n + transmitCalls es) fs := by
  induction es generalizing n with
  | nil => rfl
  | cons e es ih =>
    cases e with
    | response r => exact ih n
    | transaction buf a =>
      simp only [List.cons_append, wireStream, ih, transmitCalls, List.append_assoc]
      rw [show n + 1 + transmitCalls es = n + (transmitCalls es + 1) by omega]

/-- A stretch of bits closed by a strobe holds that one strobe. -/
@[simp] theorem count_strobe_strobed (bits : List Bool) : (strobed bits).count .strobe = 1 := by
  have h : WireEvent.strobe ∉ bits.map WireEvent.bit := by simp
  simp [strobed, List.count_append, List.count_eq_zero_of_not_mem h]

end Sys2Proof.Machine
end

