-- ==== Sys2Proof/Laws/PerInstr.lean ====
section
/-! SUPPORT. Per instruction: the word of a well-formed host command lies in its row of R65's table. -/

namespace Sys2Proof.Laws.RowMatch

open Sys2Proof.Machine

/-- The word of a well-formed command lies in the row of its opcode; a packet has no opcode, and its word is 16 bits. -/
def Statement (i : Instr) : Prop :=
  i.wf = true →
    match i.cmdOp, encode i with
    | some o, .cmd w => ∃ row ∈ cmdRows, row.op = o ∧ row.matches w
    | none, .pkt _ => True
    | _, _ => False

/-- A word built from fields lies in a row whose mask and match are built from fields, if each field does. -/
theorem matches_cmdWord {o : CmdOp} {mask pattern : CmdWord} {op a b c m0 m1 m2 m3 p0 p1 p2 p3 : Byte}
    (hm : mask = cmdWord m0 m1 m2 m3) (hp : pattern = cmdWord p0 p1 p2 p3) (h0 : op &&& m0 = p0) (h1 : a &&& m1 = p1)
    (h2 : b &&& m2 = p2) (h3 : c &&& m3 = p3) : CmdRow.matches ⟨o, mask, pattern⟩ (cmdWord op a b c) := by
  simp only [CmdRow.matches, hm, hp, cmdWord_and, h0, h1, h2, h3]

theorem wrreg (r : RegOperand) (v : Byte) : Statement (.wrreg r v) := fun _ =>
  ⟨⟨.wrreg, 0xFF0000FF, 0x01000000⟩, by decide, rfl, matches_cmdWord (m0 := 0xFF) (m1 := 0) (m2 := 0) (m3 := 0xFF)
    (p0 := 1) (p1 := 0) (p2 := 0) (p3 := 0) (by decide) (by decide) (by decide) (by simp) (by simp) (by decide)⟩

theorem wrregt (r : RegOperand) (v : Byte) (k : Int) : Statement (.wrregt r v k) := fun _ =>
  ⟨⟨.wrregt, 0xFF000000, 0x02000000⟩, by decide, rfl, matches_cmdWord (m0 := 0xFF) (m1 := 0) (m2 := 0) (m3 := 0)
    (p0 := 2) (p1 := 0) (p2 := 0) (p3 := 0) (by decide) (by decide) (by decide) (by simp) (by simp) (by simp)⟩

theorem startup : Statement .startup := fun _ => ⟨⟨.startup, 0xFFFFFFFF, 0x10000000⟩, by decide, rfl, by
  unfold CmdRow.matches; decide⟩

theorem shutdown : Statement .shutdown := fun _ => ⟨⟨.shutdown, 0xFFFFFFFF, 0x11000000⟩, by decide, rfl, by
  unfold CmdRow.matches; decide⟩

theorem teston : Statement .teston := fun _ => ⟨⟨.teston, 0xFFFFFFFF, 0x12000000⟩, by decide, rfl, by
  unfold CmdRow.matches; decide⟩

theorem testoff : Statement .testoff := fun _ => ⟨⟨.testoff, 0xFFFFFFFF, 0x13000000⟩, by decide, rfl, by
  unfold CmdRow.matches; decide⟩

theorem setdec (modes : List Bool) : Statement (.setdec modes) := fun _ =>
  ⟨⟨.setdec, 0xFFFF00FF, 0x20000000⟩, by decide, rfl, matches_cmdWord (m0 := 0xFF) (m1 := 0xFF) (m2 := 0) (m3 := 0xFF)
    (p0 := 0x20) (p1 := 0) (p2 := 0) (p3 := 0) (by decide) (by decide) (by decide) (by decide) (by simp) (by decide)⟩

theorem decnone : Statement .decnone := fun _ => ⟨⟨.decnone, 0xFFFFFFFF, 0x21000000⟩, by decide, rfl, by
  unfold CmdRow.matches; decide⟩

theorem decall : Statement .decall := fun _ => ⟨⟨.decall, 0xFFFFFFFF, 0x22000000⟩, by decide, rfl, by
  unfold CmdRow.matches; decide⟩

theorem setseg (n : Int) (segs : List Bool) : Statement (.setseg n segs) := fun _ =>
  ⟨⟨.setseg, 0xFF0000FF, 0x30000000⟩, by decide, rfl, matches_cmdWord (m0 := 0xFF) (m1 := 0) (m2 := 0) (m3 := 0xFF)
    (p0 := 0x30) (p1 := 0) (p2 := 0) (p3 := 0) (by decide) (by decide) (by decide) (by simp) (by simp) (by decide)⟩

theorem setsegb (n : Int) (b : Byte) : Statement (.setsegb n b) := fun _ =>
  ⟨⟨.setsegb, 0xFF0000FF, 0x31000000⟩, by decide, rfl, matches_cmdWord (m0 := 0xFF) (m1 := 0) (m2 := 0) (m3 := 0xFF)
    (p0 := 0x31) (p1 := 0) (p2 := 0) (p3 := 0) (by decide) (by decide) (by decide) (by simp) (by simp) (by decide)⟩

theorem setsym (n : Int) (sym : List Char) (dp : Bool) : Statement (.setsym n sym dp) := fun _ =>
  ⟨⟨.setsym, 0xFF0000FE, 0x32000000⟩, by decide, rfl, matches_cmdWord (m0 := 0xFF) (m1 := 0) (m2 := 0) (m3 := 0xFE)
    (p0 := 0x32) (p1 := 0) (p2 := 0) (p3 := 0) (by decide) (by decide) (by decide) (by simp) (by simp)
    (by cases dp <;> decide)⟩

theorem clear : Statement .clear := fun _ => ⟨⟨.clear, 0xFFFFFFFF, 0x33000000⟩, by decide, rfl, by
  unfold CmdRow.matches; decide⟩

theorem setint (v : Int) : Statement (.setint v) := fun _ =>
  ⟨⟨.setint, 0xFF00FFFF, 0x40000000⟩, by decide, rfl, matches_cmdWord (m0 := 0xFF) (m1 := 0) (m2 := 0xFF) (m3 := 0xFF)
    (p0 := 0x40) (p1 := 0) (p2 := 0) (p3 := 0) (by decide) (by decide) (by decide) (by simp) (by decide) (by decide)⟩

theorem setscan (n : Int) : Statement (.setscan n) := fun _ =>
  ⟨⟨.setscan, 0xFF00FFFF, 0x41000000⟩, by decide, rfl, matches_cmdWord (m0 := 0xFF) (m1 := 0) (m2 := 0xFF) (m3 := 0xFF)
    (p0 := 0x41) (p1 := 0) (p2 := 0) (p3 := 0) (by decide) (by decide) (by decide) (by simp) (by decide) (by decide)⟩

theorem setact (k : Int) : Statement (.setact k) := fun _ =>
  ⟨⟨.setact, 0xFF00FFFF, 0x42000000⟩, by decide, rfl, matches_cmdWord (m0 := 0xFF) (m1 := 0) (m2 := 0xFF) (m3 := 0xFF)
    (p0 := 0x42) (p1 := 0) (p2 := 0) (p3 := 0) (by decide) (by decide) (by decide) (by simp) (by decide) (by decide)⟩

theorem pktNoOp (d : Byte) : Statement (.pktNoOp d) := fun _ => trivial
theorem pktDigit0 (d : Byte) : Statement (.pktDigit0 d) := fun _ => trivial
theorem pktDigit1 (d : Byte) : Statement (.pktDigit1 d) := fun _ => trivial
theorem pktDigit2 (d : Byte) : Statement (.pktDigit2 d) := fun _ => trivial
theorem pktDigit3 (d : Byte) : Statement (.pktDigit3 d) := fun _ => trivial
theorem pktDigit4 (d : Byte) : Statement (.pktDigit4 d) := fun _ => trivial
theorem pktDigit5 (d : Byte) : Statement (.pktDigit5 d) := fun _ => trivial
theorem pktDigit6 (d : Byte) : Statement (.pktDigit6 d) := fun _ => trivial
theorem pktDigit7 (d : Byte) : Statement (.pktDigit7 d) := fun _ => trivial
theorem pktDecodeMode (d : Byte) : Statement (.pktDecodeMode d) := fun _ => trivial
theorem pktIntensity (d : Byte) : Statement (.pktIntensity d) := fun _ => trivial
theorem pktScanLimit (d : Byte) : Statement (.pktScanLimit d) := fun _ => trivial
theorem pktShutdown (d : Byte) : Statement (.pktShutdown d) := fun _ => trivial
theorem pktDisplayTest (d : Byte) : Statement (.pktDisplayTest d) := fun _ => trivial

end Sys2Proof.Laws.RowMatch
end

