-- ==== Sys2Proof/Tests/Slice0.lean ====
section
/-! SUPPORT. The model's own tests: the well-formedness checks, the decoder on words written out from the spec, one or two
steps an instruction, and for each statement with hypotheses a state and operands that meet them. Expected values are those
of spec/95_test_vectors.md, named S<n> and V<n>, or are worked out from the rule a test names. -/

namespace Sys2Proof.Tests

open Sys2Proof.Machine

/-! ### Small states -/

/-- A machine just constructed, with an active chip and the transport's next answers. -/
def small (chips active : Nat) (answers : List Answer) : State :=
  { State.construct chips 0 with active := active, answers := answers }

/-- One command word as the only input. -/
def stepWord (s : State) (w : CmdWord) : Host.Outcome State Fault Refusal := step { s with inputs := [.cmd w] }

/-- One command at the abstract level as the only input. -/
def stepCall (s : State) (i : Instr) : Host.Outcome State Fault Refusal := step { s with inputs := [.call i] }

def historyOf : Host.Outcome State Fault Refusal → Option (List Event)
  | .next t => some t.history
  | _ => none

def activeOf : Host.Outcome State Fault Refusal → Option Nat
  | .next t => some t.active
  | _ => none

def recordsOf : Host.Outcome State Fault Refusal → Option (List DecodeRecord)
  | .next t => some t.records
  | _ => none

/-- What a latched packet leaves in the chips' registers. -/
def latchedRegs (k : Nat) (w : Packet) : Option Memory :=
  match step { small 2 0 [] with inputs := [.latch k w] } with
  | .next t => some t.chain.regs
  | _ => none

/-- The events of one successful write. -/
def sent (bytes : List Byte) : List Event := [.transaction bytes .success, .response .ok]

/-- The events of one failed write. -/
def failed (bytes : List Byte) : List Event :=
  [.transaction bytes .transportError, .response (.error .transportError)]

def invalid : List Event := [.response (.error .invalidArgument)]
def outside : List Event := [.response (.error .outOfRange)]

/-! ### Well-formedness: a term that each check refuses (R64) -/

theorem test_wf_refuses_negative_operand : (Instr.setseg (-1) (List.replicate 8 false)).wf = false := by decide
theorem test_wf_refuses_operand_256 :
    (Instr.setint 256).wf = false ∧ (Instr.setscan 256).wf = false ∧ (Instr.setact 256).wf = false ∧
    (Instr.setsegb 256 0).wf = false ∧ (Instr.wrregt (.known .noOp) 0 256).wf = false ∧
    (Instr.setsym 256 ['H'] true).wf = false := by decide
theorem test_wf_refuses_short_and_long_sequences :
    (Instr.setdec (List.replicate 7 true)).wf = false ∧ (Instr.setseg 0 (List.replicate 9 true)).wf = false := by decide
theorem test_wf_refuses_symbol_of_two_characters :
    (Instr.setsym 0 ['H', 'E'] false).wf = false ∧ (Instr.setsym 0 [] false).wf = false ∧
    (Instr.setsym 0 [Char.ofNat 256] false).wf = false := by decide
theorem test_wf_refuses_unknown_register_with_a_named_address :
    (Instr.wrreg (.unknown 0x0C) 0).wf = false ∧ (Instr.wrregt (.unknown 0x00) 0 0).wf = false := by decide

/-! ### Decoding: the words of spec/95_test_vectors.md, and of the PKT16 rows of R52 -/

theorem test_decode_raw_writes :
    decodeCmd 0b00000001_00001100_00000001_00000000 = .ok (.wrreg (.known .shutdown) 0x01) ∧      -- V24
    decodeCmd 0b00000001_00000000_10101011_00000000 = .ok (.wrreg (.known .noOp) 0xAB) ∧          -- V26
    decodeCmd 0b00000010_00001111_00000001_00000011 = .ok (.wrregt (.known .displayTest) 0x01 3) ∧ -- V29
    decodeCmd 0b00000010_00001110_00000001_00001001 = .ok (.wrregt (.unknown 0x0E) 0x01 9) ∧      -- V32
    decodeCmd 0x02000000 = .ok (.wrregt (.known .noOp) 0x00 0) ∧                                  -- V89
    decodeCmd 0x01FF0000 = .ok (.wrreg (.unknown 0xFF) 0x00) := by decide
theorem test_decode_power_and_test :
    decodeCmd 0b00010000_00000000_00000000_00000000 = .ok .startup ∧                              -- V36
    decodeCmd 0b00010001_00000000_00000000_00000000 = .ok .shutdown ∧                             -- V37
    decodeCmd 0b00010010_00000000_00000000_00000000 = .ok .teston ∧                               -- V38
    decodeCmd 0b00010011_00000000_00000000_00000000 = .ok .testoff := by decide                   -- V39
theorem test_decode_decode_mode :
    decodeCmd 0b00100000_00000000_00001111_00000000 =
      .ok (.setdec [true, true, true, true, false, false, false, false]) ∧                        -- V44
    decodeCmd 0b00100000_00000000_10100101_00000000 =
      .ok (.setdec [true, false, true, false, false, true, false, true]) ∧                        -- V90
    decodeCmd 0b00100001_00000000_00000000_00000000 = .ok .decnone ∧                              -- V46
    decodeCmd 0b00100010_00000000_00000000_00000000 = .ok .decall := by decide                    -- V47
theorem test_decode_digits :
    decodeCmd 0b00110000_00000010_10000001_00000000 =
      .ok (.setseg 2 [true, false, false, false, false, false, false, true]) ∧                    -- V54
    decodeCmd 0b00110001_00000101_01011010_00000000 = .ok (.setsegb 5 0x5A) ∧                     -- V59
    decodeCmd 0b00110010_00000011_00101101_00000001 = .ok (.setsym 3 ['-'] true) ∧                -- V63
    decodeCmd 0b00110010_00001000_01001000_00000000 = .ok (.setsym 8 ['H'] false) ∧               -- V66
    decodeCmd 0b00110011_00000000_00000000_00000000 = .ok .clear := by decide                     -- V69
theorem test_decode_configuration :
    decodeCmd 0b01000000_00001111_00000000_00000000 = .ok (.setint 15) ∧                          -- V75
    decodeCmd 0b01000001_11111111_00000000_00000000 = .ok (.setscan 255) ∧                        -- V79
    decodeCmd 0b01000010_00000010_00000000_00000000 = .ok (.setact 2) := by decide                -- V80
theorem test_decode_packets :
    decodePkt 0b00000000_10101011 = .ok (.pktNoOp 0xAB) ∧ decodePkt 0b00000001_10001100 = .ok (.pktDigit0 0x8C) ∧
    decodePkt 0b00000010_00001011 = .ok (.pktDigit1 0x0B) ∧ decodePkt 0b00000011_00001101 = .ok (.pktDigit2 0x0D) ∧
    decodePkt 0b00000100_10100101 = .ok (.pktDigit3 0xA5) ∧ decodePkt 0b00000101_00000000 = .ok (.pktDigit4 0x00) ∧
    decodePkt 0b00000110_01011010 = .ok (.pktDigit5 0x5A) ∧ decodePkt 0b00000111_00001111 = .ok (.pktDigit6 0x0F) ∧
    decodePkt 0b00001000_10000000 = .ok (.pktDigit7 0x80) ∧ decodePkt 0b00001001_11111111 = .ok (.pktDecodeMode 0xFF) ∧
    decodePkt 0b00001010_00000111 = .ok (.pktIntensity 0x07) ∧ decodePkt 0b00001011_00000011 = .ok (.pktScanLimit 0x03) ∧
    decodePkt 0b00001100_00000001 = .ok (.pktShutdown 0x01) ∧ decodePkt 0b00001111_00000001 = .ok (.pktDisplayTest 0x01)
    := by decide

theorem test_decode_refuses_unassigned_opcodes :
    decodeCmd 0x00000000 = .error .unassignedOpcode ∧ decodeCmd 0xFFFFFFFF = .error .unassignedOpcode ∧  -- V86, V87
    decodeCmd 0x14000000 = .error .unassignedOpcode ∧ decodeCmd 0x43000000 = .error .unassignedOpcode := by decide -- V88
theorem test_decode_refuses_reserved_fields :
    decodeCmd 0x010C0101 = .error .reservedFieldNonZero ∧ decodeCmd 0x10010000 = .error .reservedFieldNonZero ∧ -- V34, V42
    decodeCmd 0x32004802 = .error .reservedFieldNonZero ∧ decodeCmd 0x42020100 = .error .reservedFieldNonZero ∧ -- V68, V85
    decodeCmd 0x20010000 = .error .reservedFieldNonZero ∧ decodeCmd 0x33000001 = .error .reservedFieldNonZero ∧ -- V91
    decodeCmd 0x40080001 = .error .reservedFieldNonZero ∧ decodeCmd 0x41080100 = .error .reservedFieldNonZero ∧
    decodeCmd 0x30000001 = .error .reservedFieldNonZero ∧ decodeCmd 0x310000FF = .error .reservedFieldNonZero := by decide
theorem test_decode_refuses_unnamed_addresses :
    decodePkt 0x0D01 = .error .unnamedAddress ∧ decodePkt 0x0E00 = .error .unnamedAddress ∧
    decodePkt 0x1000 = .error .unnamedAddress ∧ decodePkt 0xFFFF = .error .unnamedAddress := by decide
theorem test_encode_words :
    encode (.setsym 0 ['H'] true) = .cmd 0x32004801 ∧ encode (.wrregt (.known .intensity) 0x07 1) = .cmd 0x020A0701 ∧
    encode (.setdec [true, true, true, true, false, false, false, false]) = .cmd 0x20000F00 ∧
    encode (.pktDigit7 0x80) = .pkt 0x0880 := by decide
theorem test_table_word :
    decodeTableWord 32 0x42030000 = some (.setact 3) ∧ decodeTableWord 16 0x0A07 = some (.pktIntensity 0x07) ∧
    decodeTableWord 32 0x14000000 = none ∧ decodeTableWord 16 0x0D00 = none := by decide

/-! ### The codec -/

theorem test_encodeSegments :
    encodeSegments [true, true, true, true, false, false, false, false] = .ok 0x0F ∧                -- V5
    encodeSegments [false, false, false, false, false, false, false, true] = .ok 0x80 ∧             -- V4
    encodeSegments [] = .error .invalidArgument ∧                                                   -- V7
    encodeSegments (List.replicate 7 true) = .error .invalidArgument ∧                              -- V8
    encodeSegments (List.replicate 9 false) = .error .invalidArgument := by decide                  -- V9
theorem test_decodeSegments :
    decodeSegments 0xA5 = [true, false, true, false, false, true, false, true] ∧                    -- V10
    decodeSegments 0x0F = [true, true, true, true, false, false, false, false] := by decide         -- V11
theorem test_encodeSymbol :
    encodeSymbol ['9'] true = .ok 0x89 ∧ encodeSymbol ['-'] false = .ok 0x0A ∧                      -- V13, V14
    encodeSymbol ['P'] true = .ok 0x8E ∧ encodeSymbol [' '] true = .ok 0x8F ∧                       -- V18, V20
    encodeSymbol ['h'] false = .error .invalidArgument ∧ encodeSymbol ['A'] true = .error .invalidArgument ∧ -- V21, V22
    encodeSymbol ['H', 'E'] false = .error .invalidArgument ∧ encodeSymbol [] false = .error .invalidArgument := by decide

/-! ### The wire: S7, V24, V28 -/

theorem test_wire_S7 :
    wireOf [0x00, 0x00, 0x01, 0xFF] =
      (List.replicate 23 false ++ List.replicate 9 true).map .bit ++ [.strobe] := by decide
theorem test_wire_V28 :
    wireBits [0x0F, 0x01, 0x00, 0x00, 0x00, 0x00, 0x00, 0x00] =
      [false, false, false, false, true, true, true, true, false, false, false, false, false, false, false, true] ++
      List.replicate 48 false := by decide

/-- A failed transaction between two good ones: three strobes, and the good ones keep their bits (D2, R43). -/
theorem test_wire_failed_between :
    wireStream 0 (sent [0x0C, 0x01] ++ failed [0x09, 0xFF] ++ sent [0x0C, 0x01]) =
      wireOf [0x0C, 0x01] ++ strobed (Config.freeFailedBits 1 [0x09, 0xFF]) ++ wireOf [0x0C, 0x01] := by
  simp [sent, failed, wireStream, transmitWire]

/-! ### One step a command -/

theorem test_wrreg_V27 : historyOf (stepWord (small 4 2 [.success]) 0x010F0100) = some (sent [0, 0, 0, 0, 0x0F, 1, 0, 0]) := by
  decide
theorem test_wrreg_V31 : historyOf (stepWord (small 4 2 [.success]) 0x010D0100) = some invalid := by decide
theorem test_wrregt_V28 : historyOf (stepWord (small 4 2 [.success]) 0x020F0100) = some (sent [0x0F, 1, 0, 0, 0, 0, 0, 0]) := by
  decide
theorem test_wrregt_V30_V32 :
    historyOf (stepWord (small 4 2 [.success]) 0x020F0104) = some outside ∧
    historyOf (stepWord (small 4 2 [.success]) 0x020E0109) = some invalid := by decide
theorem test_startup_V40 : historyOf (stepWord (small 3 1 [.success]) 0x10000000) = some (sent [0, 0, 0x0C, 1, 0, 0]) := by
  decide
theorem test_shutdown_V43 : historyOf (stepWord (small 2 0 [.transportError]) 0x11000000) = some (failed [0x0C, 0, 0, 0]) := by
  decide
theorem test_teston_V38 : historyOf (stepWord (small 1 0 [.success]) 0x12000000) = some (sent [0x0F, 1]) := by decide
theorem test_testoff_V41 : historyOf (stepWord (small 3 2 [.success]) 0x13000000) = some (sent [0, 0, 0, 0, 0x0F, 0]) := by
  decide
theorem test_setdec_V44 :
    recordsOf (stepWord (small 1 0 [.success]) 0x20000F00) = some [⟨true, 0x0F⟩] ∧
    historyOf (stepWord (small 1 0 [.success]) 0x20000F00) = some (sent [0x09, 0x0F]) := by decide
theorem test_setdec_V48 : historyOf (stepCall (small 1 0 []) (.setdec [true, true, true])) = some invalid := by decide
theorem test_decnone_V46 :
    recordsOf (stepWord (small 1 0 [.success]) 0x21000000) = some [⟨true, 0x00⟩] ∧
    historyOf (stepWord (small 1 0 [.success]) 0x21000000) = some (sent [0x09, 0x00]) := by decide
theorem test_decall_V49 :
    recordsOf (stepWord (small 2 1 [.success]) 0x22000000) = some [⟨false, 0⟩, ⟨true, 0xFF⟩] ∧
    historyOf (stepWord (small 2 1 [.success]) 0x22000000) = some (sent [0, 0, 0x09, 0xFF]) := by decide
theorem test_decall_V50 :
    recordsOf (stepWord (small 1 0 [.transportError]) 0x22000000) = some [⟨false, 0⟩] ∧
    historyOf (stepWord (small 1 0 [.transportError]) 0x22000000) = some (failed [0x09, 0xFF]) := by decide
theorem test_setseg_V54_V55 :
    historyOf (stepWord (small 1 0 [.success]) 0x30028100) = some (sent [0x03, 0x81]) ∧
    historyOf (stepWord (small 1 0 [.success]) 0x30080000) = some outside := by decide
theorem test_setseg_V56_V57_V58 :
    historyOf (stepCall (small 1 0 []) (.setseg (-1) (List.replicate 8 false))) = some outside ∧
    historyOf (stepCall (small 1 0 []) (.setseg 3 [true, false])) = some invalid ∧
    historyOf (stepCall (small 1 0 []) (.setseg 9 [true, false])) = some outside := by decide
theorem test_setsegb_V61 : historyOf (stepWord (small 3 1 [.success]) 0x31070100) = some (sent [0, 0, 0x08, 1, 0, 0]) := by
  decide
theorem test_setsegb_V60 : historyOf (stepWord (small 1 0 [.success]) 0x31085A00) = some outside := by decide
theorem test_setsym_V63_V64 :
    historyOf (stepWord (small 1 0 [.success]) 0x32032D01) = some (sent [0x04, 0x8A]) ∧
    historyOf (stepWord (small 1 0 [.success]) 0x32072000) = some (sent [0x08, 0x0F]) := by decide
theorem test_setsym_V65_V67 :
    historyOf (stepWord (small 1 0 [.success]) 0x32006800) = some invalid ∧
    historyOf (stepWord (small 1 0 [.success]) 0x32087800) = some outside := by decide
theorem test_clear_V70 :
    historyOf (stepWord { small 1 0 (List.replicate 8 .success) with records := [⟨true, 0x0F⟩] } 0x33000000) =
      some ([[0x01, 0x0F], [0x02, 0x0F], [0x03, 0x0F], [0x04, 0x0F], [0x05, 0], [0x06, 0], [0x07, 0], [0x08, 0]].map
        (.transaction · .success) ++ [.response .ok]) := by decide
theorem test_clear_V73 :
    historyOf (stepWord (small 1 0 [.success, .success, .success, .transportError]) 0x33000000) =
      some ([[0x01, 0], [0x02, 0], [0x03, 0]].map (.transaction · .success) ++ failed [0x04, 0]) := by decide
theorem test_setint_V75_V76 :
    historyOf (stepWord (small 1 0 [.success]) 0x400F0000) = some (sent [0x0A, 0x0F]) ∧
    historyOf (stepWord (small 1 0 [.success]) 0x40100000) = some outside := by decide
theorem test_setint_V77 : historyOf (stepCall (small 1 0 []) (.setint (-1))) = some outside := by decide
theorem test_setscan_S3 :
    historyOf (stepWord (small 1 0 [.success]) 0x41010000) = some (sent [0x0B, 0x00]) ∧
    historyOf (stepWord (small 1 0 [.success]) 0x41080000) = some (sent [0x0B, 0x07]) := by decide
theorem test_setscan_S3_outside :
    historyOf (stepWord (small 1 0 [.success]) 0x41000000) = some outside ∧
    historyOf (stepWord (small 1 0 [.success]) 0x41090000) = some outside := by decide
theorem test_setact_V80_V82 :
    activeOf (stepWord (small 3 0 []) 0x42020000) = some 2 ∧ historyOf (stepWord (small 3 0 []) 0x42020000) = some [.response .ok] ∧
    activeOf (stepWord (small 3 2 []) 0x42030000) = some 2 ∧ historyOf (stepWord (small 3 2 []) 0x42030000) = some outside := by
  decide
theorem test_setact_word_reaches_the_last_of_256_chips : activeOf (stepWord (small 256 0 []) 0x42FF0000) = some 255 := by decide
theorem test_setact_beyond_the_word_level :
    stepWord (small 257 0 []) 0x42FF0000 = .refused .tooManyChipsForWords ∧
    activeOf (stepCall (small 257 0 []) (.setact 256)) = some 256 := ⟨rfl, by decide⟩
theorem test_illegal_word_V34 : historyOf (stepWord (small 1 0 [.success]) 0x010C0101) = some invalid := by decide
theorem test_no_command : step State.reset = .refused .noCommand := rfl

/-! ### One latched packet an instruction (R39, R52): the register whose key is `256 * chip + address` takes the byte -/

theorem test_packets_control :
    latchedRegs 1 0x00AB = some [] ∧ latchedRegs 1 0x09FF = some [(0x109, 0xFF)] ∧ latchedRegs 0 0x0A07 = some [(0x0A, 0x07)] ∧
    latchedRegs 0 0x0B03 = some [(0x0B, 0x03)] ∧ latchedRegs 1 0x0C01 = some [(0x10C, 0x01)] ∧
    latchedRegs 1 0x0F00 = some [(0x10F, 0x00)] := by decide
theorem test_packets_digits :
    latchedRegs 0 0x018C = some [(0x01, 0x8C)] ∧ latchedRegs 1 0x020B = some [(0x102, 0x0B)] ∧
    latchedRegs 0 0x030D = some [(0x03, 0x0D)] ∧ latchedRegs 1 0x04A5 = some [(0x104, 0xA5)] ∧
    latchedRegs 0 0x0500 = some [(0x05, 0x00)] ∧ latchedRegs 1 0x065A = some [(0x106, 0x5A)] ∧
    latchedRegs 0 0x070F = some [(0x07, 0x0F)] ∧ latchedRegs 1 0x0880 = some [(0x108, 0x80)] := by decide
theorem test_packet_outside_the_chain :
    step { small 2 0 [] with inputs := [.latch 2 0x0C01] } = .fault .noSuchChip ∧
    step { small 2 0 [] with inputs := [.latch 0 0x0D01] } = .refused .unnamedPacketAddress ∧
    step { small 2 0 [] with inputs := [.call (.pktShutdown 1)] } = .refused .packetIsNoCommand := ⟨rfl, rfl, rfl⟩

/-! ### Fetching and reset -/

theorem test_withFetchWord_command :
    step (State.reset.withFetchWord 32 0x42000000) = exec (.setact 0) State.reset := rfl
theorem test_withFetchWord_packet :
    step (State.reset.withFetchWord 16 0x0C01) = exec (.pktShutdown 1) State.reset := rfl
theorem test_reset_memory_wf : State.reset.chain.regs.wf = true ∧ State.reset.chain.shift.wf = true := by decide
theorem test_memory_write_stays_canonical :
    Memory.write (Memory.write [(1, 0xAA), (7, 0xBB)] 3 0xCC) 1 0xDD = [(1, 0xDD), (3, 0xCC), (7, 0xBB)] := by decide

/-! ### Witnesses: a state and operands that meet a statement's hypotheses, each clause at its bounds -/

theorem test_witness_DecodeOfEncodeIsTheInstruction :
    (Instr.wrregt (.unknown 0xFF) 0xFF 255).wf = true ∧ (Instr.wrreg (.known (.digit 7)) 0).wf = true ∧
    (Instr.setseg 0 (List.replicate 8 true)).wf = true ∧ (Instr.setsym 255 [Char.ofNat 255] true).wf = true ∧
    (Instr.pktDisplayTest 0xFF).wf = true := by decide
theorem test_witness_DecodedWordIsTheEncodingOfItsInstruction :
    decode (.cmd 0x02FFFFFF) = .ok (.wrregt (.unknown 0xFF) 0xFF 255) ∧ decode (.pkt 0x0FFF) = .ok (.pktDisplayTest 0xFF) := by
  decide
theorem test_witness_CommandWordSelectsItsOnlyRow : ∃ row ∈ cmdRows, row.matches 0x32004801 :=
  ⟨⟨.setsym, 0xFF0000FE, 0x32000000⟩, by decide, by unfold CmdRow.matches; decide⟩
theorem test_witness_UnmatchedCommandWordAnswersInvalidArgument :
    (small 1 0 []).chips ≤ 256 ∧ (small 256 255 []).chips ≤ 256 ∧
    ({ small 1 0 [] with inputs := [.cmd 0x20010000] } : State).inputs = [.cmd 0x20010000] ∧
    (∀ row ∈ cmdRows, ¬ row.matches 0x20010000) ∧ ∀ row ∈ cmdRows, ¬ row.matches 0x43000000 :=
  ⟨by decide, by decide, rfl, by unfold CmdRow.matches; decide, by unfold CmdRow.matches; decide⟩
theorem test_witness_EncodeSegmentsPacksElementIntoBit :
    (List.replicate 8 true).length = 8 ∧ (List.replicate 7 true).length ≠ 8 ∧ (List.replicate 9 true).length ≠ 8 := by decide
theorem test_witness_SegmentsRoundTrip : [true, false, false, false, false, false, false, true].length = 8 ∧ 7 < 8 := by decide
theorem test_witness_EncodeSymbolBuildsTheSymbolByte :
    symCode '0' = some 0 ∧ symCode ' ' = some 0xF ∧ ∀ c, ['H', 'E'] = [c] → symCode c = none :=
  ⟨rfl, rfl, fun c h => by simp at h⟩
theorem test_witness_SymbolTableHasSixteenCharacters :
    'h' ∉ ['0', '1', '2', '3', '4', '5', '6', '7', '8', '9', '-', 'E', 'H', 'L', 'P', ' '] := by decide
theorem test_witness_BuildTxnFillsThenOverwritesOneSlot : 0 < (small 1 0 []).chips ∧ 2 < (small 3 0 []).chips := by decide
theorem test_witness_WriteRegisterChecksBuildsAndTransmitsOnce :
    ¬ (0 ≤ (-1 : Int) ∧ (-1 : Int) < (small 3 0 []).chips) ∧ ¬ (0 ≤ (3 : Int) ∧ (3 : Int) < (small 3 0 []).chips) ∧
    (0 : Int) = ((0 : Nat) : Int) ∧ 0 < (small 3 0 []).chips ∧ 2 < (small 3 0 []).chips := by decide
theorem test_witness_LatchedPairTakesEffectOnItsChip :
    [0x00, 0x00, 0x01, 0xFF].length = 2 * 2 ∧ 1 < (small 2 0 [.success]).chips ∧ (small 2 0 [.success]).answerAt 0 = .success :=
  ⟨rfl, by decide, rfl⟩
theorem test_witness_FailedTransmitLeavesTheChainUnknown :
    historyOf (exec .startup (small 2 0 [.transportError])) = some (failed [0x0C, 1, 0, 0]) ∧
    historyOf (exec .startup (small 2 0 [.success])) = some (sent [0x0C, 1, 0, 0]) ∧ Instr.startup.isPacket = false := by decide
theorem test_witness_WireSendsMostSignificantBitFirst :
    0 < [0x80, 0x01].length ∧ 1 < [0x80, 0x01].length ∧ 2 * 0 + 1 < [0x80, 0x01].length ∧ 15 < 16 := by decide
theorem test_witness_OneStrobeEndsEachTransaction :
    (small 1 0 [.success]).answerAt 0 = .success ∧ (small 1 0 [.transportError]).answerAt 0 = .transportError ∧
    historyOf (exec .startup (small 1 0 [.success])) = some (sent [0x0C, 0x01]) ∧
    historyOf (exec .startup (small 1 0 [.transportError])) = some (failed [0x0C, 0x01]) := by decide
theorem test_witness_DelayLineBringsSlotToItsChip :
    [0x00, 0x00, 0x01, 0xFF].length = 2 * 2 ∧ (List.replicate 32 false).length = 16 * 2 ∧ 0 < 2 ∧ 1 < 2 ∧ 15 < 16 := by decide
theorem test_witness_TransactionIsThePacketsOfItsSlots :
    TxnShape (small 2 0 []).chips [0x00, 0x00, 0x01, 0xFF] ∧ [Instr.pktNoOp 0, .pktDigit0 0xFF].length = (small 2 0 []).chips ∧
    (∀ k i, [Instr.pktNoOp 0, .pktDigit0 0xFF][k]? = some i →
      decodePkt (slotPacket [0x00, 0x00, 0x01, 0xFF] k) = .ok i) ∧ [1, 0].Perm (List.range (small 2 0 []).chips) := by
  refine ⟨⟨1, .digit 0, 0xFF, by decide, txnBytes_slotPair 2 1 0x01 0xFF⟩, rfl, fun k i h => ?_, by decide⟩
  match k, h with
  | 0, h => cases h; rfl
  | 1, h => cases h; rfl
theorem test_witness_LatchedPacketWritesItsRegister :
    (small 2 0 []).latchChip < (small 2 0 []).chips ∧
    ({ small 2 0 [] with latchChip := 1 } : State).latchChip < ({ small 2 0 [] with latchChip := 1 } : State).chips := by decide
theorem test_witness_PacketForAbsentChipFaults :
    (Instr.pktShutdown 1).isPacket = true ∧
    ({ small 2 0 [] with latchChip := 2 } : State).chips ≤ ({ small 2 0 [] with latchChip := 2 } : State).latchChip := by decide
theorem test_witness_WrregWritesTheActiveChip :
    (small 3 2 [.success]).active < (small 3 2 [.success]).chips ∧ (small 3 2 [.success]).answerAt 0 = .success ∧
    (small 3 2 [.transportError]).active < (small 3 2 [.transportError]).chips ∧
    (small 3 2 [.transportError]).answerAt 0 = .transportError := ⟨by decide, rfl, by decide, rfl⟩
theorem test_witness_WrregtWritesTheTargetChip :
    0 < (small 3 2 [.success]).chips ∧ 2 < (small 3 2 [.success]).chips ∧ (small 3 2 [.success]).answerAt 0 = .success ∧
    (small 3 2 [.transportError]).answerAt 0 = .transportError ∧
    ¬ (0 ≤ (-1 : Int) ∧ (-1 : Int) < (small 3 2 []).chips) ∧ ¬ (0 ≤ (3 : Int) ∧ (3 : Int) < (small 3 2 []).chips) :=
  ⟨by decide, by decide, rfl, rfl, by decide, by decide⟩
theorem test_witness_StartupAndShutdownWriteTheShutdownRegister :
    (small 1 0 [.success]).active < (small 1 0 [.success]).chips ∧ (small 1 0 [.success]).answerAt 0 = .success ∧
    (small 1 0 [.transportError]).answerAt 0 = .transportError := ⟨by decide, rfl, rfl⟩
theorem test_witness_DisplayTestCommandsWriteTheTestRegister :
    (small 2 1 [.success]).active < (small 2 1 [.success]).chips ∧ (small 2 1 [.success]).answerAt 0 = .success ∧
    (small 2 1 [.transportError]).answerAt 0 = .transportError := ⟨by decide, rfl, rfl⟩
theorem test_witness_DecodeModeCommandsWriteRegisterAndRecord :
    (small 2 1 [.success]).active < (small 2 1 [.success]).chips ∧
    (small 2 1 [.success]).records.length = (small 2 1 [.success]).chips ∧ (small 2 1 [.success]).answerAt 0 = .success ∧
    (small 2 1 [.transportError]).records.length = (small 2 1 [.transportError]).chips ∧
    (small 2 1 [.transportError]).answerAt 0 = .transportError ∧
    [true, false, true, false, false, true, false, true].length = 8 ∧ (List.replicate 8 true).length = 8 ∧
    [true, true, true].length ≠ 8 := ⟨by decide, rfl, rfl, rfl, rfl, rfl, rfl, by decide⟩
theorem test_witness_SetsegWritesThePackedSegments :
    (small 2 1 [.success]).active < (small 2 1 [.success]).chips ∧ encodeSegments (List.replicate 8 true) = .ok 0xFF ∧
    (small 2 1 [.success]).answerAt 0 = .success ∧ (small 2 1 [.transportError]).answerAt 0 = .transportError ∧
    ¬ (0 ≤ (-1 : Int) ∧ (-1 : Int) ≤ 7) ∧ ¬ (0 ≤ (8 : Int) ∧ (8 : Int) ≤ 7) ∧ (List.replicate 9 true).length ≠ 8 :=
  ⟨by decide, rfl, rfl, rfl, by decide, by decide, by decide⟩
theorem test_witness_SetsegbWritesTheByte :
    (small 2 1 [.success]).active < (small 2 1 [.success]).chips ∧ (small 2 1 [.success]).answerAt 0 = .success ∧
    (small 2 1 [.transportError]).answerAt 0 = .transportError ∧ ¬ (0 ≤ (-1 : Int) ∧ (-1 : Int) ≤ 7) ∧
    ¬ (0 ≤ (8 : Int) ∧ (8 : Int) ≤ 7) := ⟨by decide, rfl, rfl, by decide, by decide⟩
theorem test_witness_SetsymWritesTheSymbolByte :
    (small 2 1 [.success]).active < (small 2 1 [.success]).chips ∧ encodeSymbol ['H'] true = .ok 0x8C ∧
    (small 2 1 [.success]).answerAt 0 = .success ∧ (small 2 1 [.transportError]).answerAt 0 = .transportError ∧
    ¬ (0 ≤ (-1 : Int) ∧ (-1 : Int) ≤ 7) ∧ ¬ (0 ≤ (8 : Int) ∧ (8 : Int) ≤ 7) ∧ (∀ c, [] = [c] → symCode c = none) ∧
    (0x7F : Byte).toNat < 128 :=
  ⟨by decide, rfl, rfl, rfl, by decide, by decide, fun c h => by simp at h, by decide⟩
theorem test_witness_ClearWritesEightBlankDigits :
    (small 2 1 (List.replicate 8 .success)).active < (small 2 1 (List.replicate 8 .success)).chips ∧
    (small 2 1 (List.replicate 8 .success)).Writable 8 := ⟨by decide, by unfold State.Writable; decide⟩
theorem test_witness_ClearStopsAtTheFirstTransportError :
    (small 2 1 [.transportError]).active < (small 2 1 [.transportError]).chips ∧ (small 2 1 [.transportError]).Writable 0 ∧
    (small 2 1 [.transportError]).answerAt 0 = .transportError ∧
    (small 2 1 (List.replicate 7 .success ++ [.transportError])).Writable 7 ∧
    (small 2 1 (List.replicate 7 .success ++ [.transportError])).answerAt 7 = .transportError :=
  ⟨by decide, by unfold State.Writable; decide, rfl, by unfold State.Writable; decide, rfl⟩
theorem test_witness_SetintWritesTheIntensityRegister :
    (small 2 1 [.success]).active < (small 2 1 [.success]).chips ∧ (0 ≤ (0 : Int) ∧ (0 : Int) ≤ 15) ∧
    (0 ≤ (15 : Int) ∧ (15 : Int) ≤ 15) ∧ ¬ (0 ≤ (-1 : Int) ∧ (-1 : Int) ≤ 15) ∧ ¬ (0 ≤ (16 : Int) ∧ (16 : Int) ≤ 15) ∧
    (small 2 1 [.success]).answerAt 0 = .success ∧ (small 2 1 [.transportError]).answerAt 0 = .transportError :=
  ⟨by decide, by decide, by decide, by decide, by decide, rfl, rfl⟩
theorem test_witness_SetscanWritesOneLessThanTheDigitCount :
    (small 2 1 [.success]).active < (small 2 1 [.success]).chips ∧ (1 ≤ (1 : Int) ∧ (1 : Int) ≤ 8) ∧
    (1 ≤ (8 : Int) ∧ (8 : Int) ≤ 8) ∧ ¬ (1 ≤ (0 : Int) ∧ (0 : Int) ≤ 8) ∧ ¬ (1 ≤ (9 : Int) ∧ (9 : Int) ≤ 8) ∧
    (small 2 1 [.success]).answerAt 0 = .success ∧ (small 2 1 [.transportError]).answerAt 0 = .transportError :=
  ⟨by decide, by decide, by decide, by decide, by decide, rfl, rfl⟩
theorem test_witness_SetactSelectsTheActiveChip :
    0 < (small 3 2 []).chips ∧ 2 < (small 3 2 []).chips ∧ ¬ (0 ≤ (3 : Int) ∧ (3 : Int) < (small 3 2 []).chips) ∧
    ¬ (0 ≤ (-1 : Int) ∧ (-1 : Int) < (small 3 2 []).chips) := by decide
theorem test_witness_EquivalentCommandsBehaveAlike :
    encodeSegments (List.replicate 8 true) = .ok 0xFF ∧ encodeSymbol [' '] true = .ok 0x8F ∧ 15 ≤ 15 ∧ 1 ≤ 8 ∧ 8 ≤ 8 := by decide
theorem test_witness_ClearFollowsTheDecodeModeCommand :
    (small 2 1 (List.replicate 9 .success)).active < (small 2 1 (List.replicate 9 .success)).chips ∧
    (small 2 1 (List.replicate 9 .success)).records.length = (small 2 1 (List.replicate 9 .success)).chips ∧
    (small 2 1 (List.replicate 9 .success)).Writable 9 := ⟨by decide, rfl, by unfold State.Writable; decide⟩
theorem test_witness_RepeatedWriteIsIdempotent :
    1 < (small 2 0 [.success, .success]).chips ∧ (small 2 0 [.success, .success]).Writable 2 ∧
    ∃ t u, exec (.wrregt (.known .intensity) 7 1) (small 2 0 [.success, .success]) = .next t ∧
      exec (.wrregt (.known .intensity) 7 1) t = .next u :=
  ⟨by decide, by unfold State.Writable; decide, _, _, rfl, rfl⟩
theorem test_witness_FailedValidationHasNoEffect :
    (Instr.wrreg (.unknown 0x0D) 0).hasInvalidOperand = true ∧ (Instr.setdec []).hasInvalidOperand = true ∧
    (Instr.setsym 0 ['x'] false).hasInvalidOperand = true ∧ (Instr.setact 3).hasOperandOutOfRange 3 = true ∧
    (Instr.setint (-1)).hasOperandOutOfRange 3 = true ∧ (Instr.setscan 0).hasOperandOutOfRange 3 = true := by decide
theorem test_witness_ValidationFailuresHaveOnlyTheirCauses :
    (small 3 2 []).active < (small 3 2 []).chips ∧ (Instr.setact 3).isPacket = false ∧
    historyOf (exec (.setact 3) (small 3 2 [])) = some outside ∧
    historyOf (exec (.setdec []) (small 3 2 [])) = some invalid := by decide
theorem test_witness_FirstFailingOperandIsReported :
    ¬ (0 ≤ (-1 : Int) ∧ (-1 : Int) ≤ 7) ∧ ¬ (0 ≤ (8 : Int) ∧ (8 : Int) ≤ 7) ∧ [true, false].length ≠ 8 ∧
    symbolCode ['x'] = none := by decide
theorem test_witness_EveryCommandEndsWithOneResponse : Instr.clear.isPacket = false ∧ (Instr.setact 300).isPacket = false := by decide

/-- The machine just constructed, with inputs and answers to come, meets the invariant. -/
theorem test_inv_small (inputs : List Input) (answers : List Answer) :
    ({ small 2 1 answers with inputs := inputs } : State).Inv where
  chips_pos := (by decide : 1 ≤ 2)
  active_lt := (by decide : 1 < 2)
  txbuf_shape := txnShape_zero (by decide : 1 ≤ 2)
  records_length := rfl
  regs_wf := rfl
  regs_named := by intro c h; cases h
  shift_wf := rfl
  shift_keys := by intro c h; cases h
  history_shape := by intro b a h; cases h

theorem test_witness_StepKeepsTheInvariant :
    ({ small 2 1 [.success] with inputs := [.cmd 0x10000000] } : State).Inv ∧
    ∃ t, step { small 2 1 [.success] with inputs := [.cmd 0x10000000] } = .next t :=
  ⟨test_inv_small _ _, _, rfl⟩
theorem test_witness_ConstructionEstablishesTheInvariant :
    State.construct? 3 7 = some (State.construct 3 7) ∧ State.construct? 0 0 = none := by decide
theorem test_witness_ResetLeavesTheSpecifiedState : 1 ≤ 1 ∧ 1 ≤ 256 := by decide
theorem test_witness_OnlySetactWritesTheActiveIndex :
    ∃ t, exec (.setact 2) (small 3 0 []) = .next t ∧ t.active ≠ (small 3 0 []).active := ⟨_, rfl, by decide⟩
theorem test_witness_OnlyDecodeModeCommandsWriteRecords :
    ∃ t, exec .decall (small 2 1 [.success]) = .next t ∧ t.record 1 ≠ (small 2 1 [.success]).record 1 := ⟨_, rfl, by decide⟩
theorem test_witness_StepKeepsTheParameters :
    ∃ t, step { small 2 1 [.success] with inputs := [.cmd 0x10000000] } = .next t := ⟨_, rfl⟩
theorem test_witness_CommandsReachOnlyTheirTargetChip :
    (small 2 0 (List.replicate 8 .success)).active < (small 2 0 (List.replicate 8 .success)).chips ∧
    Instr.clear.isPacket = false ∧ (small 2 0 (List.replicate 8 .success)).Writable 8 ∧
    (∃ t, exec .clear (small 2 0 (List.replicate 8 .success)) = .next t) ∧ ((1 : Nat) : Int) ≠ Instr.clear.targetChip 0 :=
  ⟨by decide, rfl, by unfold State.Writable; decide, ⟨_, rfl⟩, by decide⟩
theorem test_witness_DeadStateIsNeverObserved :
    Indistinguishable { small 1 0 [.success] with inputs := [.cmd 0x33000000] }
      { small 1 0 [.success] with inputs := [.cmd 0x33000000], txbuf := [0x0C, 0x01], records := [⟨true, 0⟩] } := by
  refine ⟨rfl, rfl, rfl, rfl, rfl, rfl, rfl, rfl, rfl, fun k n _ => ?_⟩
  cases k <;> simp [State.decv, State.dec, State.record, small, State.construct]
theorem test_witness_StepRunsTheDecodedInstruction :
    (small 2 0 []).chips ≤ 256 ∧ decodeCmd 0x42010000 = .ok (.setact 1) ∧ (Instr.setact (-1)).isPacket = false ∧ decodePkt 0x0C01 = .ok (.pktShutdown 1) ∧
    ({ small 2 0 [] with inputs := [.cmd 0x42010000] } : State).inputs = [.cmd 0x42010000] := by decide
theorem test_witness_StepStopsOnlyByName :
    step { small 2 0 [] with inputs := [.latch 2 0x0C01] } = .fault .noSuchChip ∧
    step (small 2 0 []) = .refused .noCommand ∧
    step { small 2 0 [] with inputs := [.latch 0 0x1001] } = .refused .unnamedPacketAddress ∧
    step { small 2 0 [] with inputs := [.call (.pktNoOp 0)] } = .refused .packetIsNoCommand ∧
    step { small 257 0 [] with inputs := [.cmd 0x42000000] } = .refused .tooManyChipsForWords := ⟨rfl, rfl, rfl, rfl, rfl⟩
theorem test_witness_WordLevelIsForAtMost256Chips :
    0 < 1 ∧ 255 < 256 ∧ 256 ≤ 256 ∧ (255 : Int) < 256 ∧ 256 < (small 257 0 []).chips ∧
    ({ small 257 0 [] with inputs := [.cmd 0x42000000] } : State).inputs = [.cmd 0x42000000] ∧
    ({ small 257 0 [] with inputs := [.call (.setact 256)] } : State).inputs = [.call (.setact 256)] ∧
    (Instr.setact 256).isPacket = false := by decide

end Sys2Proof.Tests
end

section
/-! SUPPORT. The rows of R65's table seen through the fields of a word, and what the decoder can answer (R64 to R66). -/

namespace Sys2Proof

open Sys2Proof.Machine

/-- The bits of fields `A`, `B` and `C` that R65's table prints as zero for an opcode. -/
def CmdOp.reserved : CmdOp → Byte × Byte × Byte
  | .wrregt => (0x00, 0x00, 0x00)
  | .wrreg | .setseg | .setsegb => (0x00, 0x00, 0xFF)
  | .setsym => (0x00, 0x00, 0xFE)
  | .setint | .setscan | .setact => (0x00, 0xFF, 0xFF)
  | .setdec => (0xFF, 0x00, 0xFF)
  | .startup | .shutdown | .teston | .testoff | .decnone | .decall | .clear => (0xFF, 0xFF, 0xFF)

/-- The row of an opcode: the whole `OP` field and the reserved bits are compared. -/
def CmdOp.row (o : CmdOp) : CmdRow :=
  ⟨o, cmdWord 0xFF o.reserved.1 o.reserved.2.1 o.reserved.2.2, cmdWord (opcode o) 0 0 0⟩

/-- R65's table is the rows of the 16 opcodes. -/
theorem cmdRows_eq_map_row : cmdRows = allOps.map CmdOp.row := by decide

theorem mem_allOps (o : CmdOp) : o ∈ allOps := by cases o <;> decide

theorem mem_cmdRows {row : CmdRow} : row ∈ cmdRows ↔ ∃ o : CmdOp, o.row = row := by
  simp [cmdRows_eq_map_row, mem_allOps]

/-- A word lies in a row exactly if it has the row's opcode and zero in the reserved bits. -/
theorem row_matches_cmdWord (o : CmdOp) (op a b c : Byte) :
    o.row.matches (cmdWord op a b c) ↔
      op = opcode o ∧ a &&& o.reserved.1 = 0 ∧ b &&& o.reserved.2.1 = 0 ∧ c &&& o.reserved.2.2 = 0 := by
  have hop : op &&& 0xFF = op := BitVec.and_allOnes
  simp only [CmdRow.matches, CmdOp.row, cmdWord_and, cmdWord_inj, hop]

theorem ifReservedZero_eq_ok {reserved : Bool} {i j : Instr} :
    ifReservedZero reserved i = .ok j ↔ reserved = true ∧ i = j := by
  cases reserved <;> simp [ifReservedZero]

/-- The decoder accepts a row's fields exactly if the reserved bits are zero (R66). -/
theorem decodeRow_isOk_iff (o : CmdOp) (a b c : Byte) :
    (∃ i, decodeRow o a b c = .ok i) ↔
      a &&& o.reserved.1 = 0 ∧ b &&& o.reserved.2.1 = 0 ∧ c &&& o.reserved.2.2 = 0 := by
  have hff (x : Byte) : x &&& 255#8 = x := BitVec.and_allOnes
  cases o <;> simp [decodeRow, ifReservedZero_eq_ok, CmdOp.reserved, hff, and_assoc]

/-- A word of a row decodes (R65). -/
theorem row_matches_iff_decodeRow (o : CmdOp) (op a b c : Byte) :
    o.row.matches (cmdWord op a b c) ↔ op = opcode o ∧ ∃ i, decodeRow o a b c = .ok i := by
  rw [row_matches_cmdWord, decodeRow_isOk_iff]

/-- Every word that decodes is an opcode and three fields that its row accepts. -/
theorem decodeCmd_ok_cases {w : CmdWord} {i : Instr} (h : decodeCmd w = .ok i) :
    ∃ o a b c, w = cmdWord (opcode o) a b c ∧ decodeRow o a b c = .ok i := by
  unfold decodeCmd at h
  split at h
  case h_1 o ho => exact ⟨o, _, _, _, by rw [opcode_of_opOf ho, cmdWord_fields], h⟩
  case h_2 => cases h

/-- A word of no row does not decode (R66). -/
theorem decodeCmd_error_of_no_row {w : CmdWord} (h : ∀ row ∈ cmdRows, ¬ row.matches w) :
    ∃ e, decodeCmd w = .error e := by
  cases hw : decodeCmd w with
  | error e => exact ⟨e, rfl⟩
  | ok i =>
    obtain ⟨o, a, b, c, rfl, hrow⟩ := decodeCmd_ok_cases hw
    exact absurd ((row_matches_iff_decodeRow ..).2 ⟨rfl, i, hrow⟩) (h o.row (mem_cmdRows.2 ⟨o, rfl⟩))

/-- No word with an `OP` field lies in a row exactly if the field is no assigned opcode. -/
theorem no_row_iff_opOf_none (op : Byte) :
    (∀ a b c, ∀ row ∈ cmdRows, ¬ row.matches (cmdWord op a b c)) ↔ opOf op = none := by
  constructor
  · intro h
    cases ho : opOf op with
    | none => rfl
    | some o =>
      have hmatch : o.row.matches (cmdWord op 0 0 0) :=
        (row_matches_cmdWord ..).2 ⟨(opcode_of_opOf ho).symm, by simp, by simp, by simp⟩
      exact absurd hmatch (h 0 0 0 _ (mem_cmdRows.2 ⟨o, rfl⟩))
  · intro h a b c row hrow hmatch
    obtain ⟨o, rfl⟩ := mem_cmdRows.1 hrow
    obtain ⟨rfl, -⟩ := (row_matches_cmdWord ..).1 hmatch
    rw [opOf_opcode] at h
    cases h

/-- The unassigned opcodes, as R66 lists them. -/
theorem opOf_eq_none_iff (op : Byte) :
    opOf op = none ↔
      op.toNat = 0x00 ∨ (0x03 ≤ op.toNat ∧ op.toNat ≤ 0x0F) ∨ (0x14 ≤ op.toNat ∧ op.toNat ≤ 0x1F) ∨
        (0x23 ≤ op.toNat ∧ op.toNat ≤ 0x2F) ∨ (0x34 ≤ op.toNat ∧ op.toNat ≤ 0x3F) ∨ 0x43 ≤ op.toNat := by
  revert op; decide

/-! ### The operands a word can express (R64) -/

theorem fitsField_iff {n : Int} : fitsField n = true ↔ 0 ≤ n ∧ n ≤ 255 := decide_eq_true_iff

@[simp] theorem fitsField_intOperand (f : Byte) : fitsField (intOperand f) = true := by
  have := f.isLt
  exact fitsField_iff.2 ⟨by simp [intOperand], by simp only [intOperand]; omega⟩

@[simp] theorem regOperand_wf (f : Byte) : (regOperand f).wf = true := by
  unfold regOperand
  split
  case h_1 => rfl
  case h_2 h => simp [RegOperand.wf, h]

@[simp] theorem fitsBits_bitsOfByte (b : Byte) : fitsBits (bitsOfByte b) = true := by simp [fitsBits]

@[simp] theorem fitsSymbol_symOperand (f : Byte) : fitsSymbol (symOperand f) = true := by
  revert f; decide

/-- A command word decodes to an instruction whose operands are what fields can hold (R64). -/
theorem decodeCmd_wf {w : CmdWord} {i : Instr} (h : decodeCmd w = .ok i) : i.wf = true := by
  obtain ⟨o, a, b, c, -, hrow⟩ := decodeCmd_ok_cases h
  cases o <;> simp only [decodeRow, ifReservedZero_eq_ok, Except.ok.injEq] at hrow
  case wrregt => subst hrow; simp [Instr.wf]
  all_goals obtain ⟨-, rfl⟩ := hrow; simp [Instr.wf]

end Sys2Proof
end

section
/-! SUPPORT. What a step does with each form of input (R12), and that a host command always answers (R97). -/

namespace Sys2Proof.Machine

theorem step_of_inputs {s : State} {x : Input} {rest : List Input} (h : s.inputs = x :: rest) :
    step s = runInput x { s with inputs := rest } := by
  simp only [step, runNext, h]

theorem runCmd_ok {w : CmdWord} {i : Instr} {s : State} (hs : s.chips ≤ 256) (h : decodeCmd w = .ok i) :
    runCmd w s = exec i s := by
  rw [runCmd, if_pos (show s.chips ≤ wordLevelChips from hs), h]

theorem runCmd_error {w : CmdWord} {e : DecodeError} {s : State} (hs : s.chips ≤ 256) (h : decodeCmd w = .error e) :
    runCmd w s = .next (s.answered (.error .invalidArgument)) := by
  rw [runCmd, if_pos (show s.chips ≤ wordLevelChips from hs), h]; rfl

theorem runCmd_refused {w : CmdWord} {s : State} (hs : 256 < s.chips) :
    runCmd w s = .refused .tooManyChipsForWords :=
  if_neg (Nat.not_le.2 hs)

theorem runCall_command {i : Instr} {s : State} (h : i.isPacket = false) : runCall i s = exec i s := by
  simp [runCall, h]

theorem runLatch_ok {k : Nat} {w : Packet} {i : Instr} {s : State} (h : decodePkt w = .ok i) :
    runLatch k w s = exec i { s with latchChip := k } := by
  rw [runLatch, h]

/-- Every host command ends with a reply: no operand and no state stops it. -/
theorem exec_command_responds {i : Instr} (h : i.isPacket = false) (s : State) :
    ∃ x : Reply, exec i s = respond x := by
  cases i with
  | pktNoOp | pktDigit0 | pktDigit1 | pktDigit2 | pktDigit3 | pktDigit4 | pktDigit5 | pktDigit6 | pktDigit7
  | pktDecodeMode | pktIntensity | pktScanLimit | pktShutdown | pktDisplayTest => cases h
  | _ => exact ⟨_, rfl⟩

end Sys2Proof.Machine
end

section
/-! PROOFS. The statements of 00_scope.md: the word level and the inputs of a step. -/

namespace Sys2Proof.Proofs.Scope

open Sys2Proof.Machine

/-- Every chip index of a block of at most 256 chips has a field that names it in both words (R6, R64a). -/
theorem words_reach_chip {k : Nat} (h : k < 256) :
    decodeCmd (cmdWord 0x42 (intField k) 0x00 0x00) = .ok (.setact k) ∧
    ∀ r v, decodeCmd (cmdWord 0x02 (regAddr r) v (intField k)) = .ok (.wrregt (.known r) v k) := by
  have hk : intOperand (intField k) = k := intOperand_intField (fitsField_iff.2 (by omega))
  constructor
  · calc decodeCmd (cmdWord 0x42 (intField k) 0x00 0x00)
        = decodeRow .setact (intField k) 0x00 0x00 := decodeCmd_cmdWord .setact ..
      _ = .ok (.setact k) := by simp [decodeRow, ifReservedZero, hk]
  · intro r v
    have hr : regOperand (regAddr r) = .known r := regOperand_regField (r := .known r) rfl
    calc decodeCmd (cmdWord 0x02 (regAddr r) v (intField k))
        = decodeRow .wrregt (regAddr r) v (intField k) := decodeCmd_cmdWord .wrregt ..
      _ = .ok (.wrregt (.known r) v k) := by simp [decodeRow, hk, hr]

/-- No word names a chip index above 255: a decoded index fits its field (R64a). -/
theorem words_stop_at_255 (w : CmdWord) {k : Int} (h : 255 < k) :
    decodeCmd w ≠ .ok (.setact k) ∧ ∀ r v, decodeCmd w ≠ .ok (.wrregt r v k) := by
  have hk : ¬ fitsField k = true := fun hf => absurd (fitsField_iff.1 hf).2 (by omega)
  constructor
  · intro hw
    exact hk (decodeCmd_wf hw)
  · intro r v hw
    exact hk (Bool.and_eq_true_iff.1 (decodeCmd_wf hw)).2

/-- Settles O4: a word of no row does not decode, and the opcodes of no row are the unassigned ones. -/
theorem unmatchedCommandWordAnswersInvalidArgument : Obligations.UnmatchedCommandWordAnswersInvalidArgument := by
  constructor
  · intro s w rest hchips hin hrow
    obtain ⟨e, he⟩ := decodeCmd_error_of_no_row hrow
    rw [step_of_inputs hin]
    exact runCmd_error hchips he
  · intro op
    rw [no_row_iff_opOf_none, opOf_eq_none_iff]

/-- Settles O52: the field that names each chip, the bound on a decoded index, and the two forms of input at a larger
block. -/
theorem wordLevelIsForAtMost256Chips : Obligations.WordLevelIsForAtMost256Chips := by
  refine ⟨fun chips k hk hchips => ⟨intField k, words_reach_chip (by omega)⟩, fun w k => words_stop_at_255 w, ?_, ?_⟩
  · intro s w rest hin hchips
    rw [step_of_inputs hin]
    exact runCmd_refused hchips
  · intro s i rest hin hi
    obtain ⟨x, hx⟩ := exec_command_responds hi { s with inputs := rest }
    rw [step_of_inputs hin]
    exact ⟨_, (runCall_command hi).trans hx⟩

/-- Settles O50: each form of input, through what the step does with it. -/
theorem stepRunsTheDecodedInstruction : Obligations.StepRunsTheDecodedInstruction := by
  intro s rest
  refine ⟨fun w i hchips hin hw => ?_, fun i hin hi => ?_, fun k w i hin hw => ?_⟩ <;> rw [step_of_inputs hin]
  · exact runCmd_ok hchips hw
  · exact runCall_command hi
  · exact runLatch_ok hw

end Sys2Proof.Proofs.Scope
end

section
/-! SUPPORT. What an instruction can do: a packet is one latch; a host command hands over transactions, selects a chip or
commits a record, and gives one response. -/

namespace Sys2Proof.Machine

/-! ### One command, seen as the register writes it makes -/

/-- `t` is `s` after one `WriteRegister` to a chip of the chain, whatever the transport answered (R76). -/
def State.Sends (s t : State) : Prop :=
  ∃ k r v, k < s.chips ∧ t = (s.buildTxn k (regAddr r) v).transmit

/-- `t` is `s` after some number of register writes. -/
abbrev State.SendsMany : State → State → Prop := Relation.ReflTransGen State.Sends

/-- The commands that write the decode-mode record (R85 to R87). -/
def IsDecodeModeCommand (i : Instr) : Prop := (∃ modes, i = .setdec modes) ∨ i = .decnone ∨ i = .decall

/-- The kinds of reply a host command can give: it made only register writes, none if a check raised; or, for `SETACT` in
range, it set the active index (R96); or, for a decode-mode command, it made register writes and committed the record of
the active chip (R88). -/
inductive CommandReply (i : Instr) (s : State) : Reply → Prop where
  | writes {t : State} (r : Response) (h : s.SendsMany t) : CommandReply i s (t, r)
  | selects {k : Nat} (hi : i = .setact k) (hk : k < s.chips) : CommandReply i s ({ s with active := k }, .ok)
  | commits {t : State} (b : Byte) (hi : IsDecodeModeCommand i) (h : s.SendsMany t) :
      CommandReply i s (t.commitDecode s.active b, .ok)

/-- A checked operand raises an error in the state it was checked in, or is used. -/
theorem withOperand_cases {α : Type} {p : Reply → Prop} {check : Except ErrorKind α} {s : State} {f : α → Reply}
    (herror : ∀ e, p (s, .error e)) (hok : ∀ a, check = .ok a → p (f a)) : p (withOperand check s f) := by
  cases check with
  | error e => exact herror e
  | ok a => exact hok a rfl

/-- A part of a command that raised ends it; else the command goes on. -/
theorem andThen_cases {p : Reply → Prop} {x : Reply} {f : State → Reply} (herror : ∀ t e, x = (t, .error e) → p x)
    (hok : ∀ t, x = (t, .ok) → p (f t)) : p (x.andThen f) := by
  obtain ⟨t, r⟩ := x
  cases r with
  | ok => exact hok t rfl
  | error e => exact herror t e rfl

theorem chipOperand_eq_ok {chips k : Nat} {i : Int} (h : chipOperand chips i = .ok k) : k < chips ∧ i = k := by
  unfold chipOperand at h
  split at h
  case isTrue hi => cases h; omega
  case isFalse => cases h

/-- `WriteRegister` makes at most one register write (R76). -/
theorem writeRegister_sends (s : State) (r : RegName) (v : Byte) (k : Int) :
    s.SendsMany (s.writeRegister r v k).1 := by
  refine withOperand_cases (p := fun x => s.SendsMany x.1) (fun _ => .refl) fun n hn => ?_
  rw [sendTo_eq]
  exact .single ⟨n, r, v, (chipOperand_eq_ok hn).1, rfl⟩

theorem writeActive_sends (s : State) (r : RegName) (v : Byte) : s.SendsMany (s.writeActive r v).1 :=
  writeRegister_sends s r v s.active

/-- Clearing digits makes register writes alone (R93). -/
theorem clearDigits_sends (ns : List (Fin 8)) (s : State) : s.SendsMany (clearDigits ns s).1 := by
  induction ns generalizing s with
  | nil => exact .refl
  | cons n ns ih =>
    rw [clearDigits, clearValue_eq, withOperand_ok]
    have hwrite := writeActive_sends s (.digit n) (if s.decv s.active && s.dec s.active n then 0x0F else 0x00)
    refine andThen_cases (p := fun x => s.SendsMany x.1) (fun _ _ _ => hwrite) fun t ht => ?_
    rw [ht] at hwrite
    exact hwrite.trans (ih t)

theorem CommandReply.of_sends {i : Instr} {s : State} {x : Reply} (h : s.SendsMany x.1) : CommandReply i s x :=
  .writes x.2 h

theorem CommandReply.writeActive {i : Instr} (s : State) (r : RegName) (v : Byte) :
    CommandReply i s (s.writeActive r v) := .of_sends (writeActive_sends s r v)

/-- A decode-mode command commits its record after its write, or raised (R88). -/
theorem CommandReply.sendDecode {i : Instr} (hi : IsDecodeModeCommand i) (s : State) (b : Byte) :
    CommandReply i s (s.sendDecode b) := by
  have hwrite := writeActive_sends s .decodeMode b
  refine andThen_cases (fun _ _ _ => .of_sends hwrite) fun t ht => ?_
  rw [ht] at hwrite
  exact .commits b hi hwrite

/-- A checked operand adds to a command only that it may raise. -/
theorem CommandReply.withOperand {α : Type} {i : Instr} {s : State} {check : Except ErrorKind α} {f : α → Reply}
    (h : ∀ a, check = .ok a → CommandReply i s (f a)) : CommandReply i s (withOperand check s f) :=
  withOperand_cases (fun e => .writes (.error e) .refl) h

/-- The instructions that are wire packets are those of the register names (R52). -/
theorem eq_packetInstr_of_isPacket {i : Instr} (h : i.isPacket = true) : ∃ r d, i = packetInstr r d := by
  cases i with
  | pktNoOp d => exact ⟨.noOp, d, rfl⟩
  | pktDigit0 d => exact ⟨.digit 0, d, rfl⟩
  | pktDigit1 d => exact ⟨.digit 1, d, rfl⟩
  | pktDigit2 d => exact ⟨.digit 2, d, rfl⟩
  | pktDigit3 d => exact ⟨.digit 3, d, rfl⟩
  | pktDigit4 d => exact ⟨.digit 4, d, rfl⟩
  | pktDigit5 d => exact ⟨.digit 5, d, rfl⟩
  | pktDigit6 d => exact ⟨.digit 6, d, rfl⟩
  | pktDigit7 d => exact ⟨.digit 7, d, rfl⟩
  | pktDecodeMode d => exact ⟨.decodeMode, d, rfl⟩
  | pktIntensity d => exact ⟨.intensity, d, rfl⟩
  | pktScanLimit d => exact ⟨.scanLimit, d, rfl⟩
  | pktShutdown d => exact ⟨.shutdown, d, rfl⟩
  | pktDisplayTest d => exact ⟨.displayTest, d, rfl⟩
  | _ => cases h

/-- Every host command answers a reply of one of the three kinds. -/
theorem exec_command_reply {i : Instr} (h : i.isPacket = false) (s : State) :
    ∃ x, CommandReply i s x ∧ exec i s = .next (x.1.answered x.2) := by
  cases i with
  | wrreg reg v => exact ⟨_, .withOperand fun r _ => .writeActive s r v, rfl⟩
  | wrregt reg v k => exact ⟨_, .withOperand fun r _ => .of_sends (writeRegister_sends s r v k), rfl⟩
  | startup => exact ⟨_, .writeActive s .shutdown 0x01, rfl⟩
  | shutdown => exact ⟨_, .writeActive s .shutdown 0x00, rfl⟩
  | teston => exact ⟨_, .writeActive s .displayTest 0x01, rfl⟩
  | testoff => exact ⟨_, .writeActive s .displayTest 0x00, rfl⟩
  | setdec modes => exact ⟨_, .withOperand fun b _ => .sendDecode (.inl ⟨modes, rfl⟩) s b, rfl⟩
  | decnone => exact ⟨_, .sendDecode (.inr (.inl rfl)) s 0x00, rfl⟩
  | decall => exact ⟨_, .sendDecode (.inr (.inr rfl)) s 0xFF, rfl⟩
  | setseg n segs => exact ⟨_, .withOperand fun r _ => .withOperand fun b _ => .writeActive s r b, rfl⟩
  | setsegb n b => exact ⟨_, .withOperand fun r _ => .writeActive s r b, rfl⟩
  | setsym n sym dp => exact ⟨_, .withOperand fun r _ => .withOperand fun b _ => .writeActive s r b, rfl⟩
  | clear => exact ⟨_, .of_sends (clearDigits_sends _ s), rfl⟩
  | setint v => exact ⟨_, .withOperand fun b _ => .writeActive s .intensity b, rfl⟩
  | setscan n => exact ⟨_, .withOperand fun b _ => .writeActive s .scanLimit b, rfl⟩
  | setact k =>
    exact ⟨_, .withOperand fun n hn => .selects (congrArg _ (chipOperand_eq_ok hn).2) (chipOperand_eq_ok hn).1, rfl⟩
  | _ => cases h

/-- Everything an instruction that answers can have done: a packet is one latch in a chip of the chain (R39), a host
command answers its reply (R97). -/
theorem exec_next_cases {i : Instr} {s t : State} (h : exec i s = .next t) :
    (∃ r d, i = packetInstr r d ∧ s.latchChip < s.chips ∧
      t = { s with chain := (s.chain.shiftPair s.latchChip (regAddr r) d).chipWrite s.latchChip (regAddr r) d }) ∨
    ∃ x, CommandReply i s x ∧ t = x.1.answered x.2 := by
  cases hp : i.isPacket with
  | false =>
    obtain ⟨x, hx, he⟩ := exec_command_reply hp s
    rw [he] at h
    exact .inr ⟨x, hx, (Host.Outcome.next.inj h).symm⟩
  | true =>
    obtain ⟨r, d, rfl⟩ := eq_packetInstr_of_isPacket hp
    rw [exec_packetInstr] at h
    by_cases hk : s.latchChip < s.chips
    · rw [latchPacket_next r d s hk] at h
      exact .inl ⟨r, d, rfl, hk, (Host.Outcome.next.inj h).symm⟩
    · rw [latchPacket_fault r d s (Nat.not_lt.1 hk)] at h
      cases h

/-- Everything an input that is answered can have done: an instruction was executed, with the chip that latches set if it
is a packet, or a command word of no row was answered (R66). -/
theorem runInput_next_cases {x : Input} {s t : State} (h : runInput x s = .next t) :
    ∃ k, (∃ i, exec i { s with latchChip := k } = .next t) ∨
      t = ({ s with latchChip := k } : State).answered (.error .invalidArgument) := by
  cases x with
  | cmd w =>
    refine ⟨s.latchChip, ?_⟩
    by_cases hchips : s.chips ≤ 256
    · cases hw : decodeCmd w with
      | ok i => exact .inl ⟨i, (runCmd_ok hchips hw).symm.trans h⟩
      | error e => exact .inr (Host.Outcome.next.inj (h.symm.trans (runCmd_error hchips hw)))
    · cases h.symm.trans (runCmd_refused (w := w) (Nat.not_le.1 hchips))
  | call i =>
    cases hp : i.isPacket with
    | false => exact ⟨s.latchChip, .inl ⟨i, (runCall_command hp).symm.trans h⟩⟩
    | true => simp [runInput, runCall, hp] at h
  | latch k w =>
    cases hw : decodePkt w with
    | ok i => exact ⟨k, .inl ⟨i, (runLatch_ok hw).symm.trans h⟩⟩
    | error e => simp [runInput, runLatch, hw] at h

/-- Everything a step that goes on can have done: it took an input and ran it (R12). -/
theorem step_next_cases {s t : State} (h : step s = .next t) :
    ∃ rest k, (∃ i, exec i { s with inputs := rest, latchChip := k } = .next t) ∨
      t = ({ s with inputs := rest, latchChip := k } : State).answered (.error .invalidArgument) := by
  cases hin : s.inputs with
  | nil => simp [step, runNext, hin] at h
  | cons x rest =>
    rw [step_of_inputs hin] at h
    exact ⟨rest, runInput_next_cases h⟩

/-! ### What register writes leave as they were -/

theorem State.SendsMany.params {s t : State} (h : s.SendsMany t) : t.params = s.params := by
  induction h with
  | refl => rfl
  | tail _ hstep ih => obtain ⟨k, r, v, -, rfl⟩ := hstep; exact ih

theorem State.SendsMany.active {s t : State} (h : s.SendsMany t) : t.active = s.active := by
  induction h with
  | refl => rfl
  | tail _ hstep ih => obtain ⟨k, r, v, -, rfl⟩ := hstep; exact ih

theorem State.SendsMany.record {s t : State} (h : s.SendsMany t) (j : Nat) : t.record j = s.record j := by
  induction h with
  | refl => rfl
  | tail _ hstep ih => obtain ⟨k, r, v, -, rfl⟩ := hstep; exact ih

/-- What every record is after `CommitDecode`, also for an index that has no record (R88). -/
theorem record_commitDecode_eq (s : State) (k : Nat) (b : Byte) (j : Nat) :
    (s.commitDecode k b).record j = if j = k ∧ k < s.records.length then { valid := true, modes := b } else s.record j := by
  by_cases hk : k < s.records.length
  · simp [record_commitDecode s hk, hk]
  · simp [State.record, hk, List.set_eq_of_length_le (Nat.not_lt.1 hk)]

end Sys2Proof.Machine
end

section
/-! SUPPORT. The invariant of R28: what each operation on the state and on the chain needs to keep it. -/

namespace Sys2Proof.Machine

/-! ### The chain's part of the invariant -/

/-- The chain's memories are canonical and hold only what the chain has: named registers of its chips, and their shift
registers' bytes. It is the chain's part of `State.Inv`. -/
structure Chain.Inv (chips : Nat) (c : Chain) : Prop where
  regs_wf : c.regs.wf = true
  regs_named : ∀ cell ∈ c.regs, ∃ k r, k < chips ∧ r ≠ .noOp ∧ cell.1 = chipKey k (regAddr r)
  shift_wf : c.shift.wf = true
  shift_keys : ∀ cell ∈ c.shift, cell.1 < 2 * chips

theorem State.Inv.chain {s : State} (h : s.Inv) : s.chain.Inv s.chips :=
  ⟨h.regs_wf, h.regs_named, h.shift_wf, h.shift_keys⟩

/-- `ChipWrite` of a named register of a chip of the chain (R39). -/
theorem Chain.Inv.chipWrite {chips k : Nat} {c : Chain} (h : c.Inv chips) (hk : k < chips) (r : RegName) (d : Byte) :
    (c.chipWrite k (regAddr r) d).Inv chips := by
  unfold Chain.chipWrite
  split
  case isTrue => exact h
  case isFalse hr =>
    refine ⟨Memory.write_wf h.regs_wf _ _, fun cell hcell => ?_, h.shift_wf, h.shift_keys⟩
    rcases Memory.mem_write hcell with rfl | hold
    · exact ⟨k, r, hk, fun he => hr (congrArg regAddr he), rfl⟩
    · exact h.regs_named cell hold

/-- A whole transaction is shifted in (R33). -/
theorem Chain.Inv.shiftIn {chips : Nat} {c : Chain} (h : c.Inv chips) {buf : List Byte} (hbuf : buf.length = 2 * chips) :
    (c.shiftIn buf).Inv chips where
  regs_wf := h.regs_wf
  regs_named := h.regs_named
  shift_wf := Memory.ofBytes_wf 0 buf
  shift_keys cell hcell := by have := (Memory.mem_ofBytes hcell).2; omega

/-- One pair is shifted into a chip of the chain (R123). -/
theorem Chain.Inv.shiftPair {chips k : Nat} {c : Chain} (h : c.Inv chips) (hk : k < chips) (a d : Byte) :
    (c.shiftPair k a d).Inv chips where
  regs_wf := h.regs_wf
  regs_named := h.regs_named
  shift_wf := Memory.write_wf (Memory.write_wf h.shift_wf _ _) _ _
  shift_keys cell hcell := by
    rcases Memory.mem_write hcell with rfl | hcell
    · show 2 * k + 1 < 2 * chips; omega
    · rcases Memory.mem_write hcell with rfl | hold
      · show 2 * k < 2 * chips; omega
      · exact h.shift_keys cell hold

/-- A chain of which nothing is known lists nothing (R43, R117). -/
theorem chain_inv_of_unlisted (chips epoch : Nat) : Chain.Inv chips { regs := [], shift := [], epoch := epoch } where
  regs_wf := rfl
  regs_named cell hcell := by cases hcell
  shift_wf := rfl
  shift_keys cell hcell := by cases hcell

/-- The chain after the transmit of a built transaction, whatever the answer (R39, R43). -/
theorem Chain.Inv.sent {s : State} (h : s.chain.Inv s.chips) {k : Nat} (hk : k < s.chips) (r : RegName) (v : Byte) :
    (s.buildTxn k (regAddr r) v).transmit.chain.Inv s.chips := by
  rw [chain_sent s hk]
  cases s.answerAt 0 with
  | success => exact (h.shiftIn (txnBytes_slotPair s.chips k (regAddr r) v).length).chipWrite hk r v
  | transportError => exact chain_inv_of_unlisted s.chips _

/-! ### The whole state -/

/-- The inputs, the answers and the chip that latches are the other agents' affair. -/
theorem State.Inv.takeInput {s : State} (h : s.Inv) (rest : List Input) (k : Nat) :
    ({ s with inputs := rest, latchChip := k } : State).Inv := { h with }

/-- A register write to a chip of the chain keeps the invariant. -/
theorem State.Inv.sends {s t : State} (h : s.Inv) (hst : s.Sends t) : t.Inv := by
  obtain ⟨k, r, v, hk, rfl⟩ := hst
  have hshape := txnShape_txnBytes hk r v
  exact
    { h.chain.sent hk r v, h with
      txbuf_shape := hshape
      history_shape := fun bytes answer hmem => by
        rcases List.mem_append.1 hmem with hold | hnew
        · exact h.history_shape bytes answer hold
        · obtain ⟨rfl, -⟩ := Event.transaction.inj (List.mem_singleton.1 hnew)
          exact hshape }

theorem State.Inv.sendsMany {s t : State} (h : s.Inv) (hst : s.SendsMany t) : t.Inv := by
  induction hst with
  | refl => exact h
  | tail _ hstep ih => exact ih.sends hstep

theorem State.Inv.select {s : State} (h : s.Inv) {k : Nat} (hk : k < s.chips) : ({ s with active := k } : State).Inv :=
  { h with active_lt := hk }

theorem State.Inv.commitDecode {s : State} (h : s.Inv) (k : Nat) (b : Byte) : (s.commitDecode k b).Inv :=
  { h with records_length := List.length_set.trans h.records_length }

/-- A response is no transaction. -/
theorem State.Inv.answered {s : State} (h : s.Inv) (r : Response) : (s.answered r).Inv :=
  { h with
    history_shape := fun bytes answer hmem => h.history_shape bytes answer (by simpa [State.answered] using hmem) }

/-- A packet latched by a chip of the chain keeps the invariant (R39, R123). -/
theorem State.Inv.latched {s : State} (h : s.Inv) {k : Nat} (hk : k < s.chips) (r : RegName) (d : Byte) :
    ({ s with chain := (s.chain.shiftPair k (regAddr r) d).chipWrite k (regAddr r) d } : State).Inv :=
  { (h.chain.shiftPair hk (regAddr r) d).chipWrite hk r d, h with }

/-- Whatever a host command did, it kept the invariant. -/
theorem CommandReply.inv {i : Instr} {s : State} {x : Reply} (hx : CommandReply i s x) (h : s.Inv) : x.1.Inv := by
  cases hx with
  | writes r hst => exact h.sendsMany hst
  | selects hi hk => exact h.select hk
  | commits b hi hst => exact (h.sendsMany hst).commitDecode s.active b

/-- Every instruction that answers keeps the invariant. -/
theorem exec_keeps_inv {i : Instr} {s t : State} (h : s.Inv) (he : exec i s = .next t) : t.Inv := by
  rcases exec_next_cases he with ⟨r, d, -, hk, rfl⟩ | ⟨x, hx, rfl⟩
  · exact h.latched hk r d
  · exact (hx.inv h).answered x.2

/-- No instruction changes the parameters (R13, R14). -/
theorem exec_keeps_params {i : Instr} {s t : State} (he : exec i s = .next t) : t.params = s.params := by
  rcases exec_next_cases he with ⟨r, d, -, -, rfl⟩ | ⟨x, hx, rfl⟩
  · rfl
  · cases hx with
    | writes r hst => exact hst.params
    | selects hi hk => rfl
    | commits b hi hst => exact hst.params

/-- Construction with at least one chip gives a state that meets the invariant (R27). -/
theorem construct_inv {chips : Nat} (h : 1 ≤ chips) (dev : Nat) : (State.construct chips dev).Inv :=
  { chain_inv_of_unlisted chips 0 with
    chips_pos := h
    active_lt := h
    txbuf_shape := txnShape_zero h
    records_length := List.length_replicate
    history_shape := fun bytes answer hmem => by cases hmem }

/-- Every record is unset after construction (R27); past the last chip there is the unset record too. -/
theorem record_construct (chips dev k : Nat) : (State.construct chips dev).record k = { valid := false, modes := 0 } :=
  List.getElem?_getD_replicate_default_eq _ chips k

end Sys2Proof.Machine
end

section
/-! SUPPORT. Two states that cannot be told apart are answered alike by every operation (R18, R20). -/

namespace Sys2Proof.Machine

/-- Two outcomes that cannot be told apart: the same stop, or next states that cannot be told apart. -/
inductive OutcomesAlike : Host.Outcome State Fault Refusal → Host.Outcome State Fault Refusal → Prop where
  | next {s t : State} (h : Indistinguishable s t) : OutcomesAlike (.next s) (.next t)
  | fault (e : Fault) : OutcomesAlike (.fault e) (.fault e)
  | refused (e : Refusal) : OutcomesAlike (.refused e) (.refused e)

/-- Two replies that cannot be told apart: the same response, in states that cannot be told apart. -/
structure RepliesAlike (x y : Reply) : Prop where
  state : Indistinguishable x.1 y.1
  response : y.2 = x.2

theorem Indistinguishable.chips {s t : State} (h : Indistinguishable s t) : t.chips = s.chips :=
  congrArg Params.chips h.params

/-! ### State updates -/

theorem Indistinguishable.takeInput {s t : State} (h : Indistinguishable s t) (rest : List Input) :
    Indistinguishable { s with inputs := rest } { t with inputs := rest } := { h with inputs := rfl }

theorem Indistinguishable.latchIn {s t : State} (h : Indistinguishable s t) (k : Nat) :
    Indistinguishable { s with latchChip := k } { t with latchChip := k } := { h with latchChip := rfl }

theorem Indistinguishable.select {s t : State} (h : Indistinguishable s t) (k : Nat) :
    Indistinguishable { s with active := k } { t with active := k } := { h with active := rfl }

theorem Indistinguishable.answered {s t : State} (h : Indistinguishable s t) (r : Response) :
    Indistinguishable (s.answered r) (t.answered r) := { h with history := congrArg (· ++ _) h.history }

theorem Indistinguishable.answerAt {s t : State} (h : Indistinguishable s t) (j : Nat) : t.answerAt j = s.answerAt j := by
  simp only [State.answerAt, h.answers, h.txCount]

/-- The buffer is rewritten before it is handed over, so what it held is not sent (R18, R75). -/
theorem Indistinguishable.sent {s t : State} (h : Indistinguishable s t) (k : Nat) (a d : Byte) :
    Indistinguishable (s.buildTxn k a d).transmit (t.buildTxn k a d).transmit :=
  { h with
    chain := by simp [h.chain, h.chips, h.answerAt]
    answers := by simp [h.answers]
    txCount := by simp [h.txCount]
    history := by simp [h.history, h.chips, h.answerAt] }

/-- A committed record is the same in both states (R88). -/
theorem Indistinguishable.commitDecode {s t : State} (h : Indistinguishable s t) (k : Nat) (b : Byte) :
    Indistinguishable (s.commitDecode k b) (t.commitDecode k b) :=
  { h with
    records_length := by simp [h.records_length]
    decode := fun j n hn => by
      have hdecode := h.decode j n hn
      simp only [State.decv, State.dec, record_commitDecode_eq, h.records_length] at hdecode ⊢
      split
      · rfl
      · exact hdecode }

/-! ### Replies and outcomes -/

theorem RepliesAlike.andThen {x y : Reply} (h : RepliesAlike x y) {f g : State → Reply}
    (hfg : ∀ s t, Indistinguishable s t → RepliesAlike (f s) (g t)) : RepliesAlike (x.andThen f) (y.andThen g) := by
  obtain ⟨s, r⟩ := x
  obtain ⟨t, r'⟩ := y
  obtain ⟨hst, hr⟩ := h
  obtain rfl : r' = r := hr
  cases r' with
  | ok => exact hfg s t hst
  | error e => exact ⟨hst, rfl⟩

theorem Indistinguishable.done {s t : State} (h : Indistinguishable s t) : RepliesAlike (done s) (done t) := ⟨h, rfl⟩

/-- A check that reads nothing but its operand finds the same in both states. -/
theorem Indistinguishable.withOperand {s t : State} (h : Indistinguishable s t) {α : Type} (check : Except ErrorKind α)
    {f g : α → Reply} (hfg : ∀ a, RepliesAlike (f a) (g a)) :
    RepliesAlike (withOperand check s f) (withOperand check t g) := by
  cases check with
  | error e => exact ⟨h, rfl⟩
  | ok a => exact hfg a

/-- A check of a chip index reads the chip count, which is the same in both states. -/
theorem Indistinguishable.withChip {s t : State} (h : Indistinguishable s t) (k : Int) {f g : Nat → Reply}
    (hfg : ∀ n, RepliesAlike (f n) (g n)) :
    RepliesAlike (Machine.withOperand (chipOperand s.chips k) s f) (Machine.withOperand (chipOperand t.chips k) t g) := by
  rw [h.chips]
  exact h.withOperand _ hfg

theorem Indistinguishable.writeRegister {s t : State} (h : Indistinguishable s t) (r : RegName) (v : Byte) (k : Int) :
    RepliesAlike (s.writeRegister r v k) (t.writeRegister r v k) := by
  refine h.withChip k fun n => ?_
  rw [sendTo_eq, sendTo_eq, h.answerAt]
  exact ⟨h.sent n (regAddr r) v, rfl⟩

theorem Indistinguishable.writeActive {s t : State} (h : Indistinguishable s t) (r : RegName) (v : Byte) :
    RepliesAlike (s.writeActive r v) (t.writeActive r v) := by
  unfold State.writeActive
  rw [h.active]
  exact h.writeRegister r v s.active

theorem Indistinguishable.sendDecode {s t : State} (h : Indistinguishable s t) (b : Byte) :
    RepliesAlike (s.sendDecode b) (t.sendDecode b) := by
  unfold State.sendDecode
  rw [h.active]
  exact (h.writeActive .decodeMode b).andThen fun s' t' h' => (h'.commitDecode s.active b).done

/-- `clearDisplay` reads of a record only whether a digit is recorded as decode (R20, R93). -/
theorem Indistinguishable.clearValue {s t : State} (h : Indistinguishable s t) (n : Fin 8) :
    clearValue t n = clearValue s n := by
  rw [clearValue_eq, clearValue_eq, h.active, h.decode s.active n n.isLt]

theorem Indistinguishable.clearDigits {s t : State} (h : Indistinguishable s t) (ns : List (Fin 8)) :
    RepliesAlike (clearDigits ns s) (clearDigits ns t) := by
  induction ns generalizing s t with
  | nil => exact h.done
  | cons n ns ih =>
    simp only [Machine.clearDigits, h.clearValue]
    exact (h.withOperand _ fun v => h.writeActive (.digit n) v).andThen fun s' t' h' => ih h'

theorem RepliesAlike.respond {x y : Reply} (h : RepliesAlike x y) : OutcomesAlike (respond x) (respond y) := by
  obtain ⟨t, r⟩ := y
  obtain rfl : r = x.2 := h.response
  exact .next (h.state.answered x.2)

theorem Indistinguishable.latchPacket {s t : State} (h : Indistinguishable s t) (r : RegName) (d : Byte) :
    OutcomesAlike (latchPacket r d s) (latchPacket r d t) := by
  by_cases hk : s.latchChip < s.chips
  · have hk' : t.latchChip < t.chips := by rwa [h.latchChip, h.chips]
    rw [latchPacket_next r d s hk, latchPacket_next r d t hk']
    exact .next { h with chain := by simp only [h.chain, h.latchChip] }
  · have hk' : ¬ t.latchChip < t.chips := by rwa [h.latchChip, h.chips]
    rw [latchPacket_fault r d s (Nat.not_lt.1 hk), latchPacket_fault r d t (Nat.not_lt.1 hk')]
    exact .fault .noSuchChip

/-- Every instruction ends alike in two states that cannot be told apart. -/
theorem Indistinguishable.exec {s t : State} (h : Indistinguishable s t) (i : Instr) :
    OutcomesAlike (exec i s) (exec i t) := by
  cases hp : i.isPacket with
  | true =>
    obtain ⟨r, d, rfl⟩ := eq_packetInstr_of_isPacket hp
    rw [exec_packetInstr, exec_packetInstr]
    exact h.latchPacket r d
  | false =>
    cases i with
    | wrreg reg v => exact (h.withOperand _ fun r => h.writeActive r v).respond
    | wrregt reg v k => exact (h.withOperand _ fun r => h.writeRegister r v k).respond
    | startup => exact (h.writeActive .shutdown 0x01).respond
    | shutdown => exact (h.writeActive .shutdown 0x00).respond
    | teston => exact (h.writeActive .displayTest 0x01).respond
    | testoff => exact (h.writeActive .displayTest 0x00).respond
    | setdec modes => exact (h.withOperand _ fun b => h.sendDecode b).respond
    | decnone => exact (h.sendDecode 0x00).respond
    | decall => exact (h.sendDecode 0xFF).respond
    | setseg n segs => exact (h.withOperand _ fun r => h.withOperand _ fun b => h.writeActive r b).respond
    | setsegb n b => exact (h.withOperand _ fun r => h.writeActive r b).respond
    | setsym n sym dp => exact (h.withOperand _ fun r => h.withOperand _ fun b => h.writeActive r b).respond
    | clear => exact (h.clearDigits _).respond
    | setint v => exact (h.withOperand _ fun b => h.writeActive .intensity b).respond
    | setscan n => exact (h.withOperand _ fun b => h.writeActive .scanLimit b).respond
    | setact k => exact (h.withChip k fun n => (h.select n).done).respond
    | _ => cases hp

theorem Indistinguishable.runInput {s t : State} (h : Indistinguishable s t) (x : Input) :
    OutcomesAlike (runInput x s) (runInput x t) := by
  cases x with
  | cmd w =>
    simp only [Machine.runInput, runCmd, h.chips]
    split
    · split
      · exact h.exec _
      · exact RepliesAlike.respond ⟨h, rfl⟩
    · exact .refused _
  | call i =>
    simp only [Machine.runInput, runCall]
    split
    · exact .refused _
    · exact h.exec i
  | latch k w =>
    simp only [Machine.runInput, runLatch]
    split
    · exact (h.latchIn k).exec _
    · exact .refused _

/-- A step ends alike in two states that cannot be told apart: both take the same input. -/
theorem Indistinguishable.step {s t : State} (h : Indistinguishable s t) : OutcomesAlike (step s) (step t) := by
  simp only [Machine.step, runNext, h.inputs]
  split
  · exact .refused _
  · exact (h.takeInput _).runInput _

theorem OutcomesAlike.of_next {s : State} {o : Host.Outcome State Fault Refusal} (h : OutcomesAlike (.next s) o) :
    ∃ t, o = .next t ∧ Indistinguishable s t := by
  cases h with
  | next hst => exact ⟨_, rfl, hst⟩

theorem OutcomesAlike.of_fault {e : Fault} {o : Host.Outcome State Fault Refusal} (h : OutcomesAlike (.fault e) o) :
    o = .fault e := by
  cases h; rfl

theorem OutcomesAlike.of_refused {e : Refusal} {o : Host.Outcome State Fault Refusal}
    (h : OutcomesAlike (.refused e) o) : o = .refused e := by
  cases h; rfl

end Sys2Proof.Machine
end

section
/-! PROOFS. The statements of 10_state.md: the state after construction, what every step keeps, and what is never
observed. -/

namespace Sys2Proof.Proofs.StateLaws

open Sys2Proof.Machine

/-- Settles O42: a step takes an input, which the invariant does not speak of, and then executes an instruction or answers a
word of no row. -/
theorem stepKeepsTheInvariant : Obligations.StepKeepsTheInvariant := by
  intro s t hinv hstep
  obtain ⟨rest, k, ⟨i, he⟩ | rfl⟩ := step_next_cases hstep
  · exact exec_keeps_inv (hinv.takeInput rest k) he
  · exact (hinv.takeInput rest k).answered _

/-- Settles O49: every operation ends alike in states that cannot be told apart, and so does the step. -/
theorem deadStateIsNeverObserved : Obligations.DeadStateIsNeverObserved := by
  intro s t h
  have halike := h.step
  refine ⟨fun s' hs => ?_, fun e hs => ?_, fun e hs => ?_⟩ <;> rw [hs] at halike
  · exact halike.of_next
  · exact halike.of_fault
  · exact halike.of_refused

/-- Settles O45: of the kinds of reply, only a selection changes the active index. -/
theorem onlySetactWritesTheActiveIndex : Obligations.OnlySetactWritesTheActiveIndex := by
  intro s t i he hne
  rcases exec_next_cases he with ⟨r, d, -, -, rfl⟩ | ⟨x, hx, rfl⟩
  · exact absurd rfl hne
  · cases hx with
    | writes r hst => exact absurd hst.active hne
    | selects hi hk => exact ⟨_, hi, hk, rfl⟩
    | commits b hi hst => exact absurd hst.active hne

/-- Settles O46: of the kinds of reply, only a commit changes a record, that of the active chip. -/
theorem onlyDecodeModeCommandsWriteRecords : Obligations.OnlyDecodeModeCommandsWriteRecords := by
  intro s t i he j hne
  rcases exec_next_cases he with ⟨r, d, -, -, rfl⟩ | ⟨x, hx, rfl⟩
  · exact absurd rfl hne
  · cases hx with
    | writes r hst => exact absurd (hst.record j) hne
    | selects hi hk => exact absurd rfl hne
    | @commits u b hi hst =>
      refine ⟨?_, List.getLast?_concat, hi⟩
      by_contra hj
      refine hne ?_
      calc (u.commitDecode s.active b).record j
          = u.record j := by simp [record_commitDecode_eq, hj]
        _ = s.record j := hst.record j

/-- Settles O47: taking an input and answering leave the parameters, and so does every instruction. -/
theorem stepKeepsTheParameters : Obligations.StepKeepsTheParameters := by
  intro s t hstep
  obtain ⟨rest, k, ⟨i, he⟩ | rfl⟩ := step_next_cases hstep
  · have hparams := exec_keeps_params he
    exact hparams
  · rfl

/-- Settles O20: every packet is the packet of a register name, and all are latched by the one shared operation. -/
theorem packetForAbsentChipFaults : Obligations.PacketForAbsentChipFaults := by
  intro s i hi hk
  obtain ⟨r, d, rfl⟩ := eq_packetInstr_of_isPacket hi
  rw [exec_packetInstr]
  exact latchPacket_fault r d s hk

/-- Settles O43: construction succeeds exactly from one chip up, and what it gives meets the invariant. -/
theorem constructionEstablishesTheInvariant : Obligations.ConstructionEstablishesTheInvariant := by
  refine ⟨fun chips dev s hs => ?_, fun chips dev => ?_, rfl⟩
  · obtain ⟨hchips, hs⟩ := Option.ite_none_right_eq_some.1 hs
    obtain rfl := Option.some.inj hs
    exact ⟨construct_inv hchips dev, rfl⟩
  · simp [State.construct?]

/-- Settles O44: the fields of a constructed state; no register is listed, so each holds its free value. -/
theorem resetLeavesTheSpecifiedState : Obligations.ResetLeavesTheSpecifiedState := by
  refine ⟨rfl, fun chips dev _ => ⟨rfl, rfl, List.length_replicate, fun b hb => List.eq_of_mem_replicate hb,
    List.length_replicate, fun k => ?_, rfl, rfl, fun k a => rfl⟩⟩
  rw [State.decv, record_construct]

end Sys2Proof.Proofs.StateLaws
end

section
/-! SUPPORT. What a transaction and a latched packet leave in every register of the chain (R39). -/

namespace Sys2Proof.Machine

/-- Of the 14 names only `NoOp` has the address that changes nothing (R52). -/
theorem regAddr_ne_zero_iff {r : RegName} : regAddr r ≠ 0 ↔ r ≠ .noOp :=
  not_congr ⟨fun h => regAddr_inj (h.trans regAddr_noOp.symm), fun h => h ▸ regAddr_noOp⟩

@[simp] theorem reg_shiftIn (c : Chain) (buf : List Byte) (k : Nat) (a : Byte) : (c.shiftIn buf).reg k a = c.reg k a := rfl

@[simp] theorem reg_shiftPair (c : Chain) (k : Nat) (a d : Byte) (k' : Nat) (a' : Byte) :
    (c.shiftPair k a d).reg k' a' = c.reg k' a' := rfl

/-- A successful transaction is a `ChipWrite` for every chip of the chain, with the pair of its slot (R39). -/
theorem reg_receive_success (c : Chain) {chips : Nat} {buf : List Byte} (h : buf.length = 2 * chips) (k : Nat) (a : Byte) :
    (c.receive chips buf .success).reg k a =
      if k < chips then (c.chipWrite k (buf.getD (2 * k) 0) (buf.getD (2 * k + 1) 0)).reg k a else c.reg k a := by
  simp only [Chain.receive, reg_strobe, reg_shiftIn]
  by_cases hk : k < chips
  · rw [shiftByte_shiftIn c buf (by omega), shiftByte_shiftIn c buf (by omega)]
    simp [hk, reg_chipWrite]
  · simp [hk]

/-- What every register holds after a successful register write (R39, R76). -/
theorem reg_sent (s : State) {k : Nat} (hk : k < s.chips) (r : RegName) (v : Byte) (h : s.answerAt 0 = .success)
    (k' : Nat) (a : Byte) :
    (s.buildTxn k (regAddr r) v).transmit.chipReg k' a =
      if r ≠ .noOp ∧ k' = k ∧ a = regAddr r then v else s.chipReg k' a := by
  simp only [← regAddr_ne_zero_iff]
  exact (delivered_sent s hk (regAddr r) v h).chipReg k' a

theorem epoch_sent (s : State) {k : Nat} (hk : k < s.chips) (a d : Byte) (h : s.answerAt 0 = .success) :
    (s.buildTxn k a d).transmit.chain.epoch = s.chain.epoch := (delivered_sent s hk a d h).epoch

/-- A failed register write leaves nothing known of the chain (R43). -/
theorem unknown_sent (s : State) {k : Nat} (hk : k < s.chips) (a d : Byte) (h : s.answerAt 0 = .transportError) :
    (s.buildTxn k a d).transmit.chain.Unknown (s.chain.epoch + 1) := by
  rw [chain_sent s hk, h]
  exact unspecified_unknown s.chain

/-- `WRREGT` of a known register to a chip of the chain, the transmit answered success (R78). -/
theorem delivered_of_exec_wrregt {s t : State} {r : RegName} {v : Byte} {k : Nat} (hk : k < s.chips)
    (ha : s.answerAt 0 = .success) (h : exec (.wrregt (.known r) v k) s = .next t) : Delivered s t k (regAddr r) v := by
  have hexec : exec (.wrregt (.known r) v k) s = respond (s.writeRegister r v k) := rfl
  rw [hexec, writeRegister_ok s r v hk, sendTo_eq, ha, respond_eq] at h
  obtain rfl := Host.Outcome.next.inj h
  exact delivered_sent s hk (regAddr r) v ha

theorem OneTransmit.chips {s t : State} (h : OneTransmit s t) : t.chips = s.chips := congrArg Params.chips h.params

/-- After one transmit the next answer is the one after it. -/
theorem OneTransmit.answerAt {s t : State} (h : OneTransmit s t) (j : Nat) : t.answerAt j = s.answerAt (j + 1) := by
  rw [← answerAt_transmit]
  simp only [State.answerAt, h.answers, h.txCount, transmit_answers, transmit_txCount]

/-- A packet that decodes is the packet instruction of the register its address byte names (R51, R53). -/
theorem decodePkt_ok_cases {a d : Byte} {i : Instr} (h : decodePkt (pktWord a d) = .ok i) :
    ∃ r, regAddr r = a ∧ i = packetInstr r d := by
  unfold decodePkt at h
  split at h
  case h_1 r hr =>
    rw [addrField_pktWord] at hr
    rw [dataField_pktWord] at h
    exact ⟨r, regAddr_of_regOf hr, (Except.ok.inj h).symm⟩
  case h_2 => cases h

/-- The state after chip `k` latched a packet from outside (R39, R123). -/
def State.latched (s : State) (k : Nat) (a d : Byte) : State :=
  { s with latchChip := k, chain := (s.chain.shiftPair k a d).chipWrite k a d }

/-- A packet instruction executed by a chip of the chain. -/
theorem exec_packetInstr_latched (r : RegName) (d : Byte) (s : State) {k : Nat} (hk : k < s.chips) :
    exec (packetInstr r d) { s with latchChip := k } = .next (s.latched k (regAddr r) d) := by
  rw [exec_packetInstr]
  exact latchPacket_next r d { s with latchChip := k } hk

theorem chipReg_latched (s : State) (k : Nat) (a d : Byte) (k' : Nat) (a' : Byte) :
    (s.latched k a d).chipReg k' a' = (s.chain.chipWrite k a d).reg k' a' := by
  show ((s.chain.shiftPair k a d).chipWrite k a d).reg k' a' = _
  rw [reg_chipWrite, reg_chipWrite, reg_shiftPair]

theorem shiftByte_latched (s : State) (k : Nat) (a d : Byte) (j : Nat) :
    (s.latched k a d).chain.shiftByte j =
      if j = 2 * k then a else if j = 2 * k + 1 then d else s.chain.shiftByte j := by
  rw [← shiftByte_shiftPair]
  exact shiftByte_congr (chipWrite_shift ..) (chipWrite_epoch ..) j

/-- Steps that each latch, in the chip they are given, that chip's pair of a buffer leave the pair's effect on exactly the
chips they were given, in whatever order: a chip's own pair is all that changes its registers. -/
theorem foldl_latches_pairs {f : Host.Outcome State Fault Refusal → Nat → Host.Outcome State Fault Refusal}
    {params : Params} {addr data : Nat → Byte}
    (hf : ∀ u k, u.params = params → k < params.chips → f (.next u) k = .next (u.latched k (addr k) (data k)))
    (order : List Nat) (horder : ∀ k ∈ order, k < params.chips) (s : State) (hs : s.params = params) :
    ∃ t, order.foldl f (.next s) = .next t ∧ ∀ k a, t.chipReg k a =
      if k ∈ order then (s.chain.chipWrite k (addr k) (data k)).reg k a else s.chipReg k a := by
  induction order generalizing s with
  | nil => exact ⟨s, rfl, fun k a => by simp⟩
  | cons j js ih =>
    obtain ⟨hj, hjs⟩ := List.forall_mem_cons.1 horder
    obtain ⟨t, ht, hreg⟩ := ih hjs (s.latched j (addr j) (data j)) hs
    refine ⟨t, by rw [List.foldl_cons, hf s j hs hj, ht], fun k a => ?_⟩
    have hlatched : (s.latched j (addr j) (data j)).chain.reg k a = (s.chain.chipWrite j (addr j) (data j)).reg k a :=
      chipReg_latched s j _ _ k a
    rw [hreg]
    simp only [State.chipReg, reg_chipWrite, hlatched, List.mem_cons]
    by_cases hk : k = j
    · subst hk
      by_cases hjs : k ∈ js
      · simp only [hjs, or_true, if_true]
        split <;> rfl
      · simp only [hjs, true_or, if_true, if_false]
    · simp only [hk, false_or, false_and, and_false, if_false]

end Sys2Proof.Machine
end

section
/-! SUPPORT. The run of a host command: how many register writes it makes at most, to which chip, and with which response
it ends (R76, R97, R108). -/

namespace Sys2Proof.Machine

/-- A command with at most `n` register writes, all to chip `k`, takes the state to the reply: writes that succeed and
settings of the block's registers follow one another, and the command ends at the first write that fails, or with a
response other than `TransportError`. -/
inductive CommandRun (k : Int) : Nat → State → Reply → Prop where
  | ends {n : Nat} (s : State) {r : Response} (hr : r ≠ .error .transportError) : CommandRun k n s (s, r)
  | sets {n : Nat} {s : State} {x : Reply} (active : Nat) (records : List DecodeRecord)
      (h : CommandRun k n { s with active := active, records := records } x) : CommandRun k n s x
  | fails {n : Nat} {s : State} {c : Nat} (hk : k = c) (hc : c < s.chips) (r : RegName) (v : Byte)
      (ha : s.answerAt 0 = .transportError) :
      CommandRun k (n + 1) s ((s.buildTxn c (regAddr r) v).transmit, .error .transportError)
  | sends {n : Nat} {s : State} {x : Reply} {c : Nat} (hk : k = c) (hc : c < s.chips) (r : RegName) (v : Byte)
      (ha : s.answerAt 0 = .success) (h : CommandRun k n (s.buildTxn c (regAddr r) v).transmit x) :
      CommandRun k (n + 1) s x

/-! ### Each command is such a run -/

theorem CommandRun.mono {k : Int} {m n : Nat} {s : State} {x : Reply} (h : CommandRun k m s x) (hmn : m ≤ n) :
    CommandRun k n s x := by
  induction h generalizing n with
  | ends s hr => exact .ends s hr
  | sets active records _ ih => exact .sets active records (ih hmn)
  | fails hk hc r v ha =>
    obtain ⟨n, rfl⟩ := Nat.exists_eq_add_of_lt hmn
    exact .fails hk hc r v ha
  | sends hk hc r v ha _ ih =>
    obtain ⟨n, rfl⟩ := Nat.exists_eq_add_of_lt hmn
    exact .sends hk hc r v ha (ih (by omega))

/-- A part of a command, and what follows it unless it raised. -/
theorem CommandRun.andThen {k : Int} {m n : Nat} {s : State} {x : Reply} {f : State → Reply} (h : CommandRun k m s x)
    (hf : ∀ t, x = (t, .ok) → CommandRun k n t (f t)) : CommandRun k (m + n) s (x.andThen f) := by
  induction h with
  | @ends m s r hr =>
    cases r with
    | ok => exact (hf s rfl).mono (Nat.le_add_left n m)
    | error e => exact .ends s hr
  | sets active records _ ih => exact .sets active records (ih hf)
  | fails hk hc r v ha => exact Nat.succ_add _ n ▸ .fails hk hc r v ha
  | sends hk hc r v ha _ ih => exact Nat.succ_add _ n ▸ .sends hk hc r v ha (ih hf)

/-- A checked operand: a check that fails does so with a validation failure (R98, R99). -/
theorem CommandRun.withOperand {α : Type} {k : Int} {n : Nat} {s : State} {check : Except ErrorKind α} {f : α → Reply}
    (hcheck : check ≠ .error .transportError) (h : ∀ a, CommandRun k n s (f a)) :
    CommandRun k n s (withOperand check s f) := by
  cases check with
  | ok a => exact h a
  | error e => exact .ends s fun he => hcheck (congrArg _ (Response.error.inj he))

theorem lookupRegister_ne_transportError (r : RegOperand) : lookupRegister r ≠ .error .transportError := by
  cases r <;> simp [lookupRegister]

theorem encodeSegments_ne_transportError (bits : List Bool) : encodeSegments bits ≠ .error .transportError := by
  unfold encodeSegments; split <;> simp

theorem encodeSymbol_ne_transportError (sym : List Char) (dp : Bool) : encodeSymbol sym dp ≠ .error .transportError := by
  unfold encodeSymbol; split <;> simp

theorem digitOperand_ne_transportError (n : Int) : digitOperand n ≠ .error .transportError := by
  unfold digitOperand; split <;> simp

theorem chipOperand_ne_transportError (chips : Nat) (k : Int) : chipOperand chips k ≠ .error .transportError := by
  unfold chipOperand; split <;> simp

theorem intensityOperand_ne_transportError (v : Int) : intensityOperand v ≠ .error .transportError := by
  unfold intensityOperand; split <;> simp

theorem scanLimitOperand_ne_transportError (n : Int) : scanLimitOperand n ≠ .error .transportError := by
  unfold scanLimitOperand; split <;> simp

/-- `WriteRegister` ends before its write, with it, or at its failure (R76). -/
theorem CommandRun.writeRegister (s : State) (r : RegName) (v : Byte) (k : Int) :
    CommandRun k 1 s (s.writeRegister r v k) := by
  by_cases hk : 0 ≤ k ∧ k < s.chips
  · obtain ⟨c, rfl⟩ := Int.eq_ofNat_of_zero_le hk.1
    have hc : c < s.chips := by omega
    rw [writeRegister_ok s r v hc, sendTo_eq]
    cases ha : s.answerAt 0 with
    | success => exact .sends rfl hc r v ha (.ends _ (by simp))
    | transportError => exact .fails rfl hc r v ha
  · rw [writeRegister_outOfRange s r v hk]
    exact .ends s (by simp)

theorem CommandRun.writeActive (s : State) (r : RegName) (v : Byte) :
    CommandRun s.active 1 s (s.writeActive r v) := .writeRegister s r v s.active

/-- A decode-mode command writes once, and only then sets the record (R88). -/
theorem CommandRun.sendDecode (s : State) (b : Byte) : CommandRun s.active 1 s (s.sendDecode b) :=
  (CommandRun.writeActive s .decodeMode b).andThen (n := 0) fun t _ =>
    .sets t.active (t.commitDecode s.active b).records (.ends _ (by simp))

/-- Clearing digits writes at most once a digit, always to the active chip (R93). -/
theorem CommandRun.clearDigits (ns : List (Fin 8)) (s : State) :
    CommandRun s.active ns.length s (clearDigits ns s) := by
  induction ns generalizing s with
  | nil => exact .ends s (by simp)
  | cons n ns ih =>
    rw [Machine.clearDigits, clearValue_eq, withOperand_ok, List.length_cons, Nat.add_comm]
    refine (CommandRun.writeActive s _ _).andThen fun t ht => ?_
    have hactive : t.active = s.active := by
      have hsends := writeActive_sends s (.digit n) (if s.decv s.active && s.dec s.active n then 0x0F else 0x00)
      rw [ht] at hsends
      exact hsends.active
    exact hactive ▸ ih t

/-- Every host command is a run of at most eight register writes, all to the chip it addresses (R16, R78). -/
theorem exec_command_run {i : Instr} (h : i.isPacket = false) (s : State) :
    ∃ x, CommandRun (i.targetChip s.active) 8 s x ∧ exec i s = .next (x.1.answered x.2) := by
  have hactive (r : RegName) (v : Byte) : CommandRun s.active 8 s (s.writeActive r v) :=
    (CommandRun.writeActive s r v).mono (by decide)
  have hdecode (b : Byte) : CommandRun s.active 8 s (s.sendDecode b) := (CommandRun.sendDecode s b).mono (by decide)
  cases i with
  | wrreg reg v => exact ⟨_, .withOperand (lookupRegister_ne_transportError reg) fun r => hactive r v, rfl⟩
  | wrregt reg v k =>
    exact ⟨_, .withOperand (lookupRegister_ne_transportError reg) fun r =>
      (CommandRun.writeRegister s r v k).mono (by decide), rfl⟩
  | startup => exact ⟨_, hactive .shutdown 0x01, rfl⟩
  | shutdown => exact ⟨_, hactive .shutdown 0x00, rfl⟩
  | teston => exact ⟨_, hactive .displayTest 0x01, rfl⟩
  | testoff => exact ⟨_, hactive .displayTest 0x00, rfl⟩
  | setdec modes => exact ⟨_, .withOperand (encodeSegments_ne_transportError modes) hdecode, rfl⟩
  | decnone => exact ⟨_, hdecode 0x00, rfl⟩
  | decall => exact ⟨_, hdecode 0xFF, rfl⟩
  | setseg n segs =>
    exact ⟨_, .withOperand (digitOperand_ne_transportError n) fun r =>
      .withOperand (encodeSegments_ne_transportError segs) (hactive r), rfl⟩
  | setsegb n b => exact ⟨_, .withOperand (digitOperand_ne_transportError n) fun r => hactive r b, rfl⟩
  | setsym n sym dp =>
    exact ⟨_, .withOperand (digitOperand_ne_transportError n) fun r =>
      .withOperand (encodeSymbol_ne_transportError sym dp) (hactive r), rfl⟩
  | clear => exact ⟨_, CommandRun.clearDigits [0, 1, 2, 3, 4, 5, 6, 7] s, rfl⟩
  | setint v => exact ⟨_, .withOperand (intensityOperand_ne_transportError v) (hactive .intensity), rfl⟩
  | setscan n => exact ⟨_, .withOperand (scanLimitOperand_ne_transportError n) (hactive .scanLimit), rfl⟩
  | setact k =>
    exact ⟨_, .withOperand (chipOperand_ne_transportError s.chips k) fun c =>
      .sets c s.records (.ends _ (by simp)), rfl⟩
  | _ => cases h

/-! ### What such a run does to the chain -/

/-- Only the write that ends the command can fail, and then the whole chain is unknown (R43). -/
theorem CommandRun.unknown {k : Int} {n : Nat} {s : State} {x : Reply} (h : CommandRun k n s x)
    (hx : x.2 = .error .transportError) : x.1.chain.Unknown (s.chain.epoch + 1) := by
  induction h with
  | ends s hr => exact absurd hx hr
  | sets active records _ ih => exact ih hx
  | fails hk hc r v ha => exact unknown_sent _ hc (regAddr r) v ha
  | sends hk hc r v ha _ ih => exact epoch_sent _ hc (regAddr r) v ha ▸ ih hx

/-- A command that ends otherwise starts no epoch. -/
theorem CommandRun.epoch {k : Int} {n : Nat} {s : State} {x : Reply} (h : CommandRun k n s x)
    (hx : x.2 ≠ .error .transportError) : x.1.chain.epoch = s.chain.epoch := by
  induction h with
  | ends s hr => rfl
  | sets active records _ ih => exact ih hx
  | fails hk hc r v ha => exact absurd rfl hx
  | sends hk hc r v ha _ ih => exact (ih hx).trans (epoch_sent _ hc (regAddr r) v ha)

/-- One answer used leaves one fewer to be sure of. -/
theorem State.Writable.sent {s : State} {n : Nat} (h : s.Writable (n + 1)) (k : Nat) (a d : Byte) :
    (s.buildTxn k a d).transmit.Writable n := fun j hj => by
  rw [(oneTransmit_sent s k a d).answerAt]
  exact h (j + 1) (by omega)

/-- If no write can fail, the registers of the chips not addressed are as they were (R37, R39). -/
theorem CommandRun.chipReg_other {k : Int} {n : Nat} {s : State} {x : Reply} (h : CommandRun k n s x)
    (hw : s.Writable n) {j : Nat} (hj : (j : Int) ≠ k) (a : Byte) : x.1.chipReg j a = s.chipReg j a := by
  induction h with
  | ends s hr => rfl
  | sets active records _ ih => exact ih hw
  | fails hk hc r v ha => cases ha.symm.trans (hw 0 (Nat.succ_pos _))
  | @sends n s x c hk hc r v ha _ ih =>
    have hjc : j ≠ c := fun e => hj (e ▸ hk.symm)
    calc x.1.chipReg j a
        = (s.buildTxn c (regAddr r) v).transmit.chipReg j a := ih (hw.sent c (regAddr r) v)
      _ = s.chipReg j a := by simp [reg_sent s hc r v ha, hjc]

end Sys2Proof.Machine
end

section
/-! SUPPORT. The wire: the place of every bit of a transaction (R32, R33), the calls and strobes of a run (R34), and the
chain as a line of bits (R35). -/

namespace Sys2Proof.Machine

theorem byteWire_getElem? (b : Byte) {m : Nat} (hm : m < 8) : (byteWire b)[m]? = some (b.getLsbD (7 - m)) := by
  interval_cases m <;> rfl

theorem wireBits_cons (b : Byte) (bs : List Byte) : wireBits (b :: bs) = byteWire b ++ wireBits bs := rfl

@[simp] theorem byteWire_length (b : Byte) : (byteWire b).length = 8 := rfl

@[simp] theorem wireBits_length (buf : List Byte) : (wireBits buf).length = 8 * buf.length := by
  induction buf with
  | nil => rfl
  | cons b bs ih => rw [wireBits_cons, List.length_append, ih, byteWire_length, List.length_cons]; omega

/-- Byte `j` takes eight places of the wire, its most significant bit first (R33). -/
theorem wireBits_getElem? {buf : List Byte} {j m : Nat} (hj : j < buf.length) (hm : m < 8) :
    (wireBits buf)[8 * j + m]? = some ((buf.getD j 0).getLsbD (7 - m)) := by
  induction buf generalizing j with
  | nil => cases hj
  | cons b bs ih =>
    rw [wireBits_cons]
    cases j with
    | zero =>
      rw [List.getElem?_append_left (by simpa using hm)]
      simpa using byteWire_getElem? b hm
    | succ j =>
      rw [List.getElem?_append_right (by simp; omega), byteWire_length,
        show 8 * (j + 1) + m - 8 = 8 * j + m by omega, ih (Nat.lt_of_succ_lt_succ hj), List.getD_cons_succ]

/-- Slot `k` takes sixteen places of the wire, the most significant bit of its packet first (R33). -/
theorem wireBits_getElem?_slot {buf : List Byte} {k m : Nat} (hk : 2 * k + 1 < buf.length) (hm : m < 16) :
    (wireBits buf)[16 * k + m]? = some ((slotPacket buf k).getLsbD (15 - m)) := by
  rw [slotPacket, BitVec.getLsbD_append]
  by_cases h8 : m < 8
  · rw [show 16 * k + m = 8 * (2 * k) + m by omega, wireBits_getElem? (by omega) h8, if_neg (by omega),
      show 15 - m - 8 = 7 - m by omega]
  · rw [show 16 * k + m = 8 * (2 * k + 1) + (m - 8) by omega, wireBits_getElem? hk (by omega), if_pos (by omega),
      show 7 - (m - 8) = 15 - m by omega]

/-! ### Calls and strobes -/

/-- A `Transmit` call on the wire is bits and one strobe, whatever the answer; the bits of a success are R33's. -/
theorem transmitWire_eq_strobed (n : Nat) (buf : List Byte) (a : Answer) :
    ∃ bits, transmitWire n buf a = strobed bits ∧ (a = .success → bits = wireBits buf) := by
  cases a with
  | success => exact ⟨wireBits buf, rfl, fun _ => rfl⟩
  | transportError => exact ⟨Config.freeFailedBits n buf, rfl, fun h => by cases h⟩

/-- The wire of a run that ends with a `Transmit` call. -/
theorem wireStream_concat_transaction (n : Nat) (es : List Event) (buf : List Byte) (a : Answer) :
    ∃ bits : List Bool, wireStream n (es ++ [.transaction buf a]) = wireStream n es ++ bits.map .bit ++ [.strobe] ∧
      (a = .success → bits = wireBits buf) := by
  obtain ⟨bits, hbits, hsuccess⟩ := transmitWire_eq_strobed (n + transmitCalls es) buf a
  refine ⟨bits, ?_, hsuccess⟩
  rw [wireStream_append, wireStream, wireStream, List.append_nil, hbits, strobed, List.append_assoc]

theorem wireStream_concat_response (n : Nat) (es : List Event) (r : Response) :
    wireStream n (es ++ [.response r]) = wireStream n es := by
  rw [wireStream_append, wireStream, wireStream, List.append_nil]

/-- A run has put as many strobes on the wire as it made `Transmit` calls. -/
theorem count_strobe_wireStream (n : Nat) (es : List Event) : (wireStream n es).count .strobe = transmitCalls es := by
  induction es generalizing n with
  | nil => rfl
  | cons e es ih =>
    cases e with
    | response r => exact ih n
    | transaction buf a =>
      obtain ⟨bits, hbits, -⟩ := transmitWire_eq_strobed n buf a
      rw [wireStream, hbits, List.count_append, count_strobe_strobed, ih, transmitCalls, Nat.add_comm]

/-- Register writes are counted as they are observed. -/
theorem State.SendsMany.transmitCalls {s t : State} (h : s.SendsMany t) :
    transmitCalls t.history + s.txCount = transmitCalls s.history + t.txCount := by
  induction h with
  | refl => rfl
  | tail _ hstep ih =>
    obtain ⟨k, r, v, -, rfl⟩ := hstep
    simp only [transmit_history, buildTxn_history, transmitCalls_append, transmit_txCount, buildTxn_txCount,
      Machine.transmitCalls]
    omega

/-- Whatever a host command did, its `Transmit` calls are counted as they are observed. -/
theorem CommandReply.transmitCalls {i : Instr} {s : State} {x : Reply} (h : CommandReply i s x) :
    Machine.transmitCalls x.1.history + s.txCount = Machine.transmitCalls s.history + x.1.txCount := by
  cases h with
  | writes r hst => exact hst.transmitCalls
  | selects hi hk => rfl
  | commits b hi hst => exact hst.transmitCalls

/-- Every instruction counts its `Transmit` calls as they are observed. -/
theorem exec_transmitCalls {i : Instr} {s t : State} (h : exec i s = .next t) :
    transmitCalls t.history + s.txCount = transmitCalls s.history + t.txCount := by
  rcases exec_next_cases h with ⟨r, d, -, -, rfl⟩ | ⟨x, hx, rfl⟩
  · rfl
  · simpa [State.answered, transmitCalls] using hx.transmitCalls

/-! ### The delay line -/

/-- Bits that have entered a line stand at its near end, the last one first, and push out as many of the old ones. -/
theorem shiftBits_eq {line bits : List Bool} (h : bits.length ≤ line.length) :
    shiftBits line bits = bits.reverse ++ line.take (line.length - bits.length) := by
  induction bits generalizing line with
  | nil => simp [shiftBits]
  | cons b bs ih =>
    rw [List.length_cons] at h
    have hlen : (shiftBit line b).length = line.length := by simp [shiftBit]; omega
    have htake : (shiftBit line b).take (line.length - bs.length) = b :: line.take (line.length - (bs.length + 1)) := by
      rw [show line.length - bs.length = line.length - (bs.length + 1) + 1 by omega, shiftBit, List.take_succ_cons,
        List.dropLast_eq_take, List.take_take, Nat.min_eq_left (by omega)]
    calc shiftBits line (b :: bs)
        = shiftBits (shiftBit line b) bs := rfl
      _ = bs.reverse ++ b :: line.take (line.length - (bs.length + 1)) := by rw [ih (by omega), hlen, htake]
      _ = (b :: bs).reverse ++ line.take (line.length - (b :: bs).length) := by simp

end Sys2Proof.Machine
end

section
/-! PROOFS. The statements of 20_memory.md: the chain's registers, what a transaction and a packet do to them, and the
wire. -/

namespace Sys2Proof.Proofs.ChainAndWire

open Sys2Proof.Machine

/-- Settles O13: a `ChipWrite`, the strobe that makes one for every chip, and the one that is not filler. -/
theorem latchedPairTakesEffectOnItsChip : Obligations.LatchedPairTakesEffectOnItsChip := by
  refine ⟨fun c k a d k' a' => ?_, fun c chips buf hbuf k a => reg_receive_success c hbuf k a, fun s r v k hk ha => ?_⟩
  · rw [regAddr_noOp]
    exact reg_chipWrite c k a d k' a'
  · exact ⟨_, by rw [writeRegister_ok s r v hk, sendTo_eq, ha], reg_sent s hk r v ha⟩

/-- Settles O14: the last event is the response, and a command's run ends with `TransportError` only at a failed write. -/
theorem failedTransmitLeavesTheChainUnknown : Obligations.FailedTransmitLeavesTheChainUnknown := by
  intro s t i hi he
  obtain ⟨x, hrun, hx⟩ := exec_command_run hi s
  obtain rfl := Host.Outcome.next.inj (he.symm.trans hx)
  have hlast : (x.1.answered x.2).history.getLast? = some (.response x.2) := List.getLast?_concat
  rw [hlast]
  exact ⟨fun h => hrun.unknown (Event.response.inj (Option.some.inj h)),
    fun h => hrun.epoch fun hr => h (by rw [hr])⟩

/-- Settles O15: the places of a byte's bits, and of a slot's. -/
theorem wireSendsMostSignificantBitFirst : Obligations.WireSendsMostSignificantBitFirst := fun buf =>
  ⟨wireBits_length buf, fun _ _ => wireBits_getElem?, fun _ _ => wireBits_getElem?_slot⟩

/-- Settles O16: strobes are `Transmit` calls, and every instruction counts the calls it makes. -/
theorem oneStrobeEndsEachTransaction : Obligations.OneStrobeEndsEachTransaction := by
  refine ⟨wireStream_concat_transaction, wireStream_concat_response, count_strobe_wireStream, fun s => ?_,
    fun s t i he => ?_, fun chips dev => rfl⟩
  · exact wireStream_concat_transaction 0 s.history s.txbuf (s.answerAt 0)
  · rw [State.wire, State.wire, count_strobe_wireStream, count_strobe_wireStream]
    exact exec_transmitCalls he

/-- Settles O17: the line ends as the transaction's bits in reverse, so place `i` of slot `k`'s chip is the bit sent
`15 - i` places into the slot. -/
theorem delayLineBringsSlotToItsChip : Obligations.DelayLineBringsSlotToItsChip := by
  intro chips buf line hbuf hline k i hk hi
  have hlen : (wireBits buf).length = 16 * chips := by rw [wireBits_length, hbuf]; omega
  have hplace : 16 * chips - 1 - (16 * chipsBefore chips k + i) = 16 * k + (15 - i) := by unfold chipsBefore; omega
  rw [shiftBits_eq (by omega), hline, hlen, Nat.sub_self, List.take_zero, List.append_nil,
    List.getElem?_reverse (by unfold chipsBefore; omega), hlen, hplace,
    wireBits_getElem?_slot (by omega) (by omega), show 15 - (15 - i) = i by omega]

/-- Settles O18: each packet latches the pair of its slot in the slot's chip, and the order holds exactly the chips of the
chain. -/
theorem transactionIsThePacketsOfItsSlots : Obligations.TransactionIsThePacketsOfItsSlots := by
  intro s buf packets hshape hlength hpackets order horder
  obtain ⟨_, _, _, _, hpair⟩ := hshape
  have hmem (k : Nat) : k ∈ order ↔ k < s.chips := by rw [horder.mem_iff, List.mem_range]
  refine Exists.imp (fun t ht => ⟨ht.1, fun k a => ?_⟩) (foldl_latches_pairs (addr := fun k => buf.getD (2 * k) 0)
    (data := fun k => buf.getD (2 * k + 1) 0) (fun u k hu hk => ?_) order (fun k hk => (hmem k).1 hk) s rfl)
  · rw [ht.2, reg_receive_success s.chain hpair.length]
    simp only [hmem, State.chipReg]
  · obtain ⟨i, hi⟩ : ∃ i, packets[k]? = some i := ⟨_, List.getElem?_eq_getElem (hlength.symm ▸ hk)⟩
    obtain ⟨r, hr, rfl⟩ := decodePkt_ok_cases (hpackets k i hi)
    have hexec := exec_packetInstr_latched r (buf.getD (2 * k + 1) 0) u
      (show k < u.chips by rw [State.chips, hu]; exact hk)
    rw [hr] at hexec
    simp only [hi]
    exact hexec

/-- Settles O19: each of the 14 packets is the packet instruction of its name. -/
theorem latchedPacketWritesItsRegister : Obligations.LatchedPacketWritesItsRegister := by
  intro s d hk p hp
  have hinstr : p.1 = packetInstr p.2 d := by
    revert p
    simp [packetInstr]
  refine ⟨s.latched s.latchChip (regAddr p.2) d, ?_, rfl, chipWrite_epoch .., fun k a => ?_, fun j => ?_⟩
  · rw [hinstr]
    exact exec_packetInstr_latched p.2 d s hk
  · rw [chipReg_latched, reg_chipWrite]
    simp only [regAddr_ne_zero_iff, State.chipReg]
  · exact shiftByte_latched s s.latchChip (regAddr p.2) d j

/-- Settles O36: after the first write the register holds the value the second one writes. -/
theorem repeatedWriteIsIdempotent : Obligations.RepeatedWriteIsIdempotent := by
  intro s t u r v k hk hw ht hu k' a
  have hfirst := delivered_of_exec_wrregt hk (hw 0 (by decide)) ht
  have hanswer : t.answerAt 0 = .success := (hfirst.answerAt 0).trans (hw 1 (by decide))
  have hsecond := delivered_of_exec_wrregt (hfirst.chips.symm ▸ hk) hanswer hu
  rw [hsecond.chipReg, hfirst.chipReg]
  split <;> rfl

/-- Settles O48: a host command's run writes to the chip it addresses alone. -/
theorem commandsReachOnlyTheirTargetChip : Obligations.CommandsReachOnlyTheirTargetChip := by
  intro s t i _ hi hw he k a hk
  obtain ⟨x, hrun, hx⟩ := exec_command_run hi s
  obtain rfl := Host.Outcome.next.inj (he.symm.trans hx)
  exact hrun.chipReg_other hw hk a

end Sys2Proof.Proofs.ChainAndWire
end

section
/-! SUPPORT. The operands of a word, read and written (R64), and the decoder and the encoder as inverses of each other
(R51, R52, R63 to R66). -/

namespace Sys2Proof

open Sys2Proof.Machine

/-! ### The operands of a field, written back -/

theorem intField_intOperand (f : Byte) : intField (intOperand f) = f := by simp [intField, intOperand]

theorem regField_regOperand (f : Byte) : regField (regOperand f) = f := by
  unfold regOperand
  split
  case h_1 r hr => exact regAddr_of_regOf hr
  case h_2 => rfl

theorem symOperand_symField {sym : List Char} (h : fitsSymbol sym = true) : symOperand (symField sym) = sym := by
  match sym, h with
  | [c], h =>
    have hc : c.toNat < 256 := of_decide_eq_true h
    simp [symOperand, symField, Nat.mod_eq_of_lt hc]

theorem symField_symOperand (f : Byte) : symField (symOperand f) = f := by revert f; decide

/-- The flag is bit 0 of its field, and the other bits are R65's zeros. -/
theorem getLsbD_dpField (dp : Bool) : (dpField dp).getLsbD 0 = dp := by cases dp <;> rfl

theorem dpField_reserved (dp : Bool) : dpField dp &&& 0xFE = 0 := by cases dp <;> rfl

theorem dpField_getLsbD {c : Byte} (h : c &&& 0xFE = 0) : dpField (c.getLsbD 0) = c := by
  revert c; decide

/-! ### Decoding what was encoded -/

/-- The word of a packet instruction is its register's address and its data byte (R51, R52). -/
theorem encode_packetInstr (r : RegName) (d : Byte) : encode (packetInstr r d) = .pkt (pktWord (regAddr r) d) := by
  cases r with
  | digit n => fin_cases n <;> rfl
  | _ => rfl

theorem packetInstr_wf (r : RegName) (d : Byte) : (packetInstr r d).wf = true := by
  cases r with
  | digit n => fin_cases n <;> rfl
  | _ => rfl

theorem decodePkt_regAddr (r : RegName) (d : Byte) : decodePkt (pktWord (regAddr r) d) = .ok (packetInstr r d) := by
  simp [decodePkt, regOf_regAddr]

theorem decode_cmdWord (o : CmdOp) (a b c : Byte) : decode (.cmd (cmdWord (opcode o) a b c)) = decodeRow o a b c :=
  decodeCmd_cmdWord o a b c

/-- A host command's word decodes to the command: its opcode selects its row, its reserved fields are zero, and each operand
is read back from its field. -/
theorem decode_encode_command {i : Instr} (hi : i.isPacket = false) (h : i.wf = true) : decode (encode i) = .ok i := by
  cases i with
  | wrreg r v =>
    have hr : r.wf = true := h
    simp [encode, decode_cmdWord, decodeRow, ifReservedZero, regOperand_regField hr]
  | wrregt r v k =>
    obtain ⟨hr, hk⟩ := Bool.and_eq_true_iff.1 h
    simp [encode, decode_cmdWord, decodeRow, regOperand_regField hr, intOperand_intField hk]
  | setdec modes =>
    have hmodes : modes.length = 8 := eq_of_beq h
    simp [encode, decode_cmdWord, decodeRow, ifReservedZero, bitsOfByte_byteOfBits hmodes]
  | setseg n segs =>
    obtain ⟨hn, hsegs⟩ := Bool.and_eq_true_iff.1 h
    simp [encode, decode_cmdWord, decodeRow, ifReservedZero, intOperand_intField hn,
      bitsOfByte_byteOfBits (eq_of_beq hsegs)]
  | setsym n sym dp =>
    obtain ⟨hn, hsym⟩ := Bool.and_eq_true_iff.1 h
    simp only [encode, decode_cmdWord, decodeRow, dpField_reserved, getLsbD_dpField, intOperand_intField hn,
      symOperand_symField hsym, beq_self_eq_true, ifReservedZero, if_true]
  | setsegb n | setint n | setscan n | setact n =>
    have hn : fitsField n = true := h
    simp [encode, decode_cmdWord, decodeRow, ifReservedZero, intOperand_intField hn]
  | startup | shutdown | teston | testoff | decnone | decall | clear =>
    simp [encode, decode_cmdWord, decodeRow, ifReservedZero]
  | _ => cases hi

/-- Every well-formed instruction is read back from its word. -/
theorem decode_encode {i : Instr} (h : i.wf = true) : decode (encode i) = .ok i := by
  cases hi : i.isPacket with
  | false => exact decode_encode_command hi h
  | true =>
    obtain ⟨r, d, rfl⟩ := eq_packetInstr_of_isPacket hi
    rw [encode_packetInstr]
    exact decodePkt_regAddr r d

/-- A command word written out is decoded as the instruction it encodes. -/
theorem decodeCmd_of_encode {w : CmdWord} {i : Instr} (h : i.wf = true) (hw : encode i = .cmd w) : decodeCmd w = .ok i := by
  rw [← decode_encode h, hw, decode]

/-! ### Encoding what was decoded -/

/-- The instruction a row reads from three fields is encoded to the row's opcode and those fields: no bit is lost, and the
reserved bits, which no operand holds, are zero. -/
theorem encode_of_decodeRow {o : CmdOp} {a b c : Byte} {i : Instr} (h : decodeRow o a b c = .ok i) :
    encode i = .cmd (cmdWord (opcode o) a b c) := by
  cases o <;>
    simp only [decodeRow, ifReservedZero_eq_ok, Except.ok.injEq, Bool.and_eq_true, beq_iff_eq] at h
  case wrregt => subst h; simp [encode, regField_regOperand, intField_intOperand]
  case setsym =>
    obtain ⟨hc, rfl⟩ := h
    rw [encode, intField_intOperand, symField_symOperand, dpField_getLsbD hc]
  all_goals
    obtain ⟨hzero, rfl⟩ := h
    simp [encode, hzero, regField_regOperand, intField_intOperand, byteOfBits_bitsOfByte]

/-- Every command word that decodes is the word of its instruction (R65, R66). -/
theorem encode_of_decodeCmd {w : CmdWord} {i : Instr} (h : decodeCmd w = .ok i) : encode i = .cmd w := by
  obtain ⟨o, a, b, c, rfl, hrow⟩ := decodeCmd_ok_cases h
  exact encode_of_decodeRow hrow

/-- Every packet that decodes is the packet instruction of a register name, at that name's address (R53). -/
theorem decodePkt_eq_ok {w : Packet} {i : Instr} (h : decodePkt w = .ok i) :
    ∃ r d, w = pktWord (regAddr r) d ∧ i = packetInstr r d := by
  rw [← pktWord_fields w] at h ⊢
  obtain ⟨r, hr, rfl⟩ := decodePkt_ok_cases h
  exact ⟨r, _, by rw [hr], rfl⟩

/-- A row's fields are read as a command of that row's opcode. -/
theorem cmdOp_of_decodeRow {o : CmdOp} {a b c : Byte} {i : Instr} (h : decodeRow o a b c = .ok i) :
    i.cmdOp = some o := by
  cases o <;> simp only [decodeRow, ifReservedZero_eq_ok, Except.ok.injEq] at h
  case wrregt => subst h; rfl
  all_goals obtain ⟨-, rfl⟩ := h; rfl

/-- A command word decodes to a command of an opcode exactly if it lies in that opcode's row (R65). -/
theorem decodeCmd_cmdOp_iff (w : CmdWord) (o : CmdOp) :
    (∃ i, decodeCmd w = .ok i ∧ i.cmdOp = some o) ↔ o.row.matches w := by
  constructor
  · rintro ⟨i, hw, hi⟩
    obtain ⟨o', a, b, c, rfl, hrow⟩ := decodeCmd_ok_cases hw
    obtain rfl : o' = o := Option.some.inj ((cmdOp_of_decodeRow hrow).symm.trans hi)
    exact (row_matches_iff_decodeRow ..).2 ⟨rfl, i, hrow⟩
  · intro hmatch
    rw [← cmdWord_fields w] at hmatch ⊢
    obtain ⟨hop, i, hrow⟩ := (row_matches_iff_decodeRow ..).1 hmatch
    rw [hop, decodeCmd_cmdWord]
    exact ⟨i, hrow, cmdOp_of_decodeRow hrow⟩

/-- A word lies in the rows of no two opcodes: what it decodes to has one opcode. -/
theorem row_matches_unique {w : CmdWord} {o o' : CmdOp} (h : o.row.matches w) (h' : o'.row.matches w) : o = o' := by
  obtain ⟨i, hw, hi⟩ := (decodeCmd_cmdOp_iff w o).2 h
  obtain ⟨i', hw', hi'⟩ := (decodeCmd_cmdOp_iff w o').2 h'
  obtain rfl : i = i' := Except.ok.inj (hw.symm.trans hw')
  exact Option.some.inj (hi.symm.trans hi')

/-! ### The tables (R52, R53, R56) -/

theorem mem_allRegs (r : RegName) : r ∈ allRegs := List.mem_of_find?_eq_some (regOf_regAddr r)

theorem regOf_eq_some_iff {a : Byte} {r : RegName} : regOf a = some r ↔ regAddr r = a :=
  ⟨regAddr_of_regOf, fun h => h ▸ regOf_regAddr r⟩

theorem regOf_eq_none_iff {a : Byte} : regOf a = none ↔ ∀ r, regAddr r ≠ a := by
  simp only [Option.eq_none_iff_forall_ne_some, ne_eq, regOf_eq_some_iff]

/-- The addresses of no name (R53), with the numbers of R52's table. -/
theorem regOf_eq_none_iff_toNat (a : Byte) : regOf a = none ↔ a = 0x0D ∨ a = 0x0E ∨ 0x10 ≤ a.toNat := by
  revert a; decide

theorem regAddr_digit (n : Fin 8) : (regAddr (.digit n)).toNat = n.val + 1 := by
  have := n.isLt
  simp only [regAddr, BitVec.toNat_ofNat]
  omega

theorem regAddr_le (r : RegName) : (regAddr r).toNat ≤ 0x0F := by
  cases r with
  | digit n => rw [regAddr_digit]; omega
  | _ => decide

/-- The code of each character of the table is its place there (R56). -/
theorem symCode_symTable (p : Fin 16) : symCode (symTable[p.val]'p.isLt).1 = some (BitVec.ofNat 4 p) := by
  revert p; decide

theorem symCode_eq_none {c : Char} (h : c ∉ symTable.map Prod.fst) : symCode c = none := by
  refine List.lookup_eq_none_iff.2 fun p hp => ?_
  have hne : c ≠ p.1 := fun hc => h (hc ▸ List.mem_map_of_mem hp)
  simpa using hne

end Sys2Proof
end

section
/-! SUPPORT. Commands whose operands pass their checks, as the register writes they make (R77, R85, R89 to R95), and the
response a code stands for (R67). -/

namespace Sys2Proof.Machine

variable (s : State)

theorem exec_wrreg_known (r : RegName) (v : Byte) : exec (.wrreg (.known r) v) s = respond (s.writeActive r v) := rfl

theorem exec_setdec_ok {modes : List Bool} {b : Byte} (h : encodeSegments modes = .ok b) :
    exec (.setdec modes) s = respond (s.sendDecode b) := by
  rw [exec, execSetdec, h, withOperand_ok]

/-- `SETSEG` differs from `SETSEGB` in the check of its segments alone (R90, R91). -/
theorem exec_setseg_ok {segs : List Bool} {b : Byte} (h : encodeSegments segs = .ok b) (n : Int) :
    exec (.setseg n segs) s = exec (.setsegb n b) s := by
  simp only [exec, execSetseg, execSetsegb, h, withOperand_ok]

/-- `SETSYM` differs from `SETSEGB` in the check of its symbol alone (R91, R92). -/
theorem exec_setsym_ok {sym : List Char} {dp : Bool} {b : Byte} (h : encodeSymbol sym dp = .ok b) (n : Int) :
    exec (.setsym n sym dp) s = exec (.setsegb n b) s := by
  simp only [exec, execSetsym, execSetsegb, h, withOperand_ok]

theorem exec_setsegb_digit (n : Fin 8) (b : Byte) :
    exec (.setsegb n.val b) s = respond (s.writeActive (.digit n) b) := by
  rw [exec, execSetsegb, digitOperand_ok, withOperand_ok]

theorem exec_setint_ok {v : Nat} (h : v ≤ 15) :
    exec (.setint v) s = respond (s.writeActive .intensity (BitVec.ofNat 8 v)) := by
  have hv : intensityOperand v = .ok (BitVec.ofNat 8 v) := if_pos (by omega)
  rw [exec, execSetint, hv, withOperand_ok]

/-- The data byte is one less than the number of digits (R59, R95). -/
theorem exec_setscan_ok {n : Nat} (h : 1 ≤ n) (h' : n ≤ 8) :
    exec (.setscan n) s = respond (s.writeActive .scanLimit (BitVec.ofNat 8 (n - 1))) := by
  have hn : scanLimitOperand n = .ok (BitVec.ofNat 8 (n - 1)) := by
    rw [scanLimitOperand, if_pos (by omega), show ((n : Int) - 1).toNat = n - 1 by omega]
  rw [exec, execSetscan, hn, withOperand_ok]

/-- The response with a code (R67). -/
def respOfCode (c : BitVec 2) : Response :=
  if c = 0b00 then .ok
  else if c = 0b01 then .error .invalidArgument
  else if c = 0b10 then .error .outOfRange
  else .error .transportError

theorem respOfCode_respCode (r : Response) : respOfCode (respCode r) = r := by
  cases r with
  | ok => rfl
  | error e => cases e <;> rfl

end Sys2Proof.Machine
end

section
/-! PROOFS. The statements of 30_encoding.md: the decoder and the encoder, the tables, the equal commands and the response
codes. -/

namespace Sys2Proof.Proofs.Encoding

open Sys2Proof.Machine

/-- Settles O1: a packet by its register's address, a command by its row and the fields of its operands. -/
theorem decodeOfEncodeIsTheInstruction : Obligations.DecodeOfEncodeIsTheInstruction := fun _ h => decode_encode h

/-- Settles O2: a command word is the fields its row accepts, a packet the address of a name and a byte. -/
theorem decodedWordIsTheEncodingOfItsInstruction : Obligations.DecodedWordIsTheEncodingOfItsInstruction := by
  intro w i h
  cases w with
  | cmd w => exact ⟨decodeCmd_wf h, encode_of_decodeCmd h⟩
  | pkt w =>
    obtain ⟨r, d, rfl, rfl⟩ := decodePkt_eq_ok h
    exact ⟨packetInstr_wf r d, encode_packetInstr r d⟩

/-- Settles O3: the rows are those of the opcodes, and the row a word lies in is that of the command it decodes to. -/
theorem commandWordSelectsItsOnlyRow : Obligations.CommandWordSelectsItsOnlyRow := by
  constructor
  · intro w o
    rw [decodeCmd_cmdOp_iff]
    constructor
    · exact fun hmatch => ⟨o.row, mem_cmdRows.2 ⟨o, rfl⟩, rfl, hmatch⟩
    · rintro ⟨row, hrow, hop, hmatch⟩
      obtain ⟨o', rfl⟩ := mem_cmdRows.1 hrow
      obtain rfl : o' = o := hop
      exact hmatch
  · intro w row hrow row' hrow' hmatch hmatch'
    obtain ⟨o, rfl⟩ := mem_cmdRows.1 hrow
    obtain ⟨o', rfl⟩ := mem_cmdRows.1 hrow'
    rw [row_matches_unique hmatch hmatch']

/-- Settles O5: the words that decode are encodings of well-formed instructions; the others are refused by the decoder's own
tests of `OP`, of the reserved fields and of the address. -/
theorem wordsOfTheSpecDecode : Obligations.WordsOfTheSpecDecode :=
  ⟨decodeCmd_of_encode rfl rfl, decodeCmd_of_encode rfl rfl, decodeCmd_of_encode rfl rfl, decodeCmd_of_encode rfl rfl,
    decodeCmd_of_encode rfl rfl, decodeCmd_of_encode rfl rfl, decodeCmd_of_encode rfl rfl,
    decodeCmd_cmdWord .setdec 0x01 0x00 0x00, by decide, decodePkt_regAddr .intensity 0x07, by decide⟩

/-- Settles O6: the lookup by address is the inverse of the address map, so it finds every name and no two share an address. -/
theorem registerAddressMap : Obligations.RegisterAddressMap :=
  ⟨fun _ _ => regAddr_inj, regAddr_le, mem_allRegs, rfl, rfl, regAddr_digit, rfl, rfl, rfl, rfl, rfl,
    fun a => regOf_eq_none_iff.symm.trans (regOf_eq_none_iff_toNat a), fun _ _ => regOf_eq_some_iff⟩

/-- Settles O10: the characters listed are those of the table, in its order. -/
theorem symbolTableHasSixteenCharacters : Obligations.SymbolTableHasSixteenCharacters :=
  ⟨fun p => ⟨(symTable[p.val]'p.isLt).1, by revert p; decide, symCode_symTable p⟩, fun _ hc => symCode_eq_none hc, rfl, rfl⟩

/-- Settles O34: each pair of commands makes the same write, once the operand checks of both have passed. -/
theorem equivalentCommandsBehaveAlike : Obligations.EquivalentCommandsBehaveAlike := by
  intro s
  refine ⟨?_, ?_, fun n segs b hb => exec_setseg_ok s hb n, fun n sym dp b hb => exec_setsym_ok s hb n, rfl, rfl, rfl, rfl,
    fun n b => ?_, fun v hv => ?_, fun n h1 h8 => ?_⟩
  · exact (exec_setdec_ok s (by decide)).symm
  · exact (exec_setdec_ok s (by decide)).symm
  · rw [exec_setsegb_digit, exec_wrreg_known]
  · rw [exec_setint_ok s hv, exec_wrreg_known]
  · rw [exec_setscan_ok s h1 h8, exec_wrreg_known]

/-- Settles O41: a code can be read back, so no two responses share one. -/
theorem responseCodesAreDistinct : Obligations.ResponseCodesAreDistinct :=
  ⟨rfl, rfl, rfl, rfl, fun _ _ h => Function.LeftInverse.injective respOfCode_respCode h⟩

end Sys2Proof.Proofs.Encoding
end

section
/-! SUPPORT. The codec of 40_codec.md: the packing sum of R70 bit by bit and as a number, the fields of a symbol byte
(R55), and the answers of the two encoders. -/

namespace Sys2Proof

/-! ### The packing sum -/

theorem packNat_cons (b : Bool) (bs : List Bool) : packNat (b :: bs) = Nat.bit b (packNat bs) := by
  rw [packNat, Nat.bit_val, Nat.add_comm]

/-- No element's weight runs into another's: bit `i` of the sum is element `i`. -/
theorem testBit_packNat (bits : List Bool) (i : Nat) : (packNat bits).testBit i = bits.getD i false := by
  induction bits generalizing i with
  | nil => simp [packNat]
  | cons b bs ih =>
    rw [packNat_cons]
    cases i with
    | zero => simp
    | succ i => simpa [Nat.testBit_bit_succ] using ih i

theorem packNat_eq_sum (bits : List Bool) :
    packNat bits = ∑ i ∈ Finset.range bits.length, (bits.getD i false).toNat * 2 ^ i := by
  induction bits with
  | nil => rfl
  | cons b bs ih =>
    rw [packNat, ih, List.length_cons, Finset.sum_range_succ', Finset.mul_sum, Nat.add_comm]
    congr 1
    · exact Finset.sum_congr rfl fun i _ => by rw [List.getD_cons_succ, Nat.pow_succ]; ring
    · simp

theorem packNat_lt_two_pow (bits : List Bool) : packNat bits < 2 ^ bits.length := by
  refine Nat.lt_pow_two_of_testBit _ fun i hi => ?_
  rw [testBit_packNat, List.getD_eq_default _ _ hi]

/-! ### The bits of a byte, by index -/

theorem getLsbD_byteOfBits (bits : List Bool) {i : Nat} (hi : i < 8) :
    (byteOfBits bits).getLsbD i = bits.getD i false := by
  rw [byteOfBits, BitVec.getLsbD_ofNat, testBit_packNat, decide_eq_true hi, Bool.true_and]

theorem toNat_byteOfBits {bits : List Bool} (h : bits.length = 8) : (byteOfBits bits).toNat = packNat bits := by
  have hlt : packNat bits < 2 ^ 8 := h ▸ packNat_lt_two_pow bits
  rw [byteOfBits, BitVec.toNat_ofNat, Nat.mod_eq_of_lt hlt]

theorem getD_bitsOfByte (b : Byte) {i : Nat} (hi : i < 8) : (bitsOfByte b).getD i false = b.getLsbD i := by
  interval_cases i <;> rfl

end Sys2Proof

namespace Sys2Proof.Machine

theorem encodeSegments_ok {bits : List Bool} (h : bits.length = 8) : encodeSegments bits = .ok (byteOfBits bits) :=
  if_pos h

theorem encodeSegments_error {bits : List Bool} (h : bits.length ≠ 8) :
    encodeSegments bits = .error .invalidArgument := if_neg h

/-! ### The symbol byte -/

theorem symbolByte_point (code : Nibble) (dp : Bool) : (symbolByte code dp).getLsbD 7 = dp := by
  simp only [symbolByte, BitVec.getLsbD_append]
  simp

theorem symbolByte_zeros (code : Nibble) (dp : Bool) : (symbolByte code dp).extractLsb' 4 3 = 0 := by
  apply BitVec.eq_of_getLsbD_eq; intro i hi
  simp only [symbolByte, BitVec.getLsbD_append, BitVec.getLsbD_extractLsb']
  interval_cases i <;> simp

theorem symbolByte_code (code : Nibble) (dp : Bool) : (symbolByte code dp).extractLsb' 0 4 = code :=
  BitVec.extractLsb'_append_eq_right

/-- The byte is the point and the zeros over the code, so `2^4` times the one plus the other. -/
theorem toNat_symbolByte (code : Nibble) (dp : Bool) : (symbolByte code dp).toNat = code.toNat + 128 * dp.toNat := by
  have hcode := code.isLt
  rw [symbolByte, BitVec.toNat_append, ← Nat.shiftLeft_add_eq_or_of_lt hcode, Nat.shiftLeft_eq]
  cases dp <;> simp [Nat.add_comm]

/-! ### Symbols with and without a code -/

theorem symbolCode_eq_none {sym : List Char} (h : ∀ c, sym = [c] → symCode c = none) : symbolCode sym = none := by
  match sym with
  | [] => rfl
  | [c] => exact h c rfl
  | _ :: _ :: _ => rfl

theorem encodeSymbol_ok {c : Char} {code : Nibble} (h : symCode c = some code) (dp : Bool) :
    encodeSymbol [c] dp = .ok (symbolByte code dp) := by
  simp only [encodeSymbol, symbolCode, h]

theorem encodeSymbol_error {sym : List Char} (h : symbolCode sym = none) (dp : Bool) :
    encodeSymbol sym dp = .error .invalidArgument := by
  simp only [encodeSymbol, h]

end Sys2Proof.Machine
end

section
/-! PROOFS. The statements of 40_codec.md: packing and unpacking segments, and the symbol byte. -/

namespace Sys2Proof.Proofs.Codec

open Sys2Proof.Machine

/-- Settles O7: the byte of an accepted sequence is R70's sum, which eight elements keep below `2^8`. -/
theorem encodeSegmentsPacksElementIntoBit : Obligations.EncodeSegmentsPacksElementIntoBit := by
  refine fun bits => ⟨fun h => ⟨byteOfBits bits, encodeSegments_ok h, fun _ => getLsbD_byteOfBits bits, ?_⟩,
    encodeSegments_error⟩
  rw [toNat_byteOfBits h, packNat_eq_sum, h]

/-- Settles O8: the sequences `encodeSegments` accepts are those of `decodeSegments`, and a byte and its bits
determine each other. -/
theorem segmentsRoundTrip : Obligations.SegmentsRoundTrip :=
  ⟨fun b => ⟨bitsOfByte_length b, fun _ => getD_bitsOfByte b⟩,
    fun _ h => ⟨_, encodeSegments_ok h, bitsOfByte_byteOfBits h⟩,
    fun b => (encodeSegments_ok (bitsOfByte_length b)).trans (congrArg _ (byteOfBits_bitsOfByte b))⟩

/-- Settles O9: the symbol byte is read back field by field; `'H'` and `' '` have the codes `0xC` and `0xF` of R56,
and the characters R73 names as refused are outside the table. -/
theorem encodeSymbolBuildsTheSymbolByte : Obligations.EncodeSymbolBuildsTheSymbolByte := by
  intro sym dp
  refine ⟨?_, fun h => encodeSymbol_error (symbolCode_eq_none h) dp, by simp [symCode_eq_none, symTable],
    encodeSymbol_ok (code := 0xF) rfl false, encodeSymbol_ok (code := 0xC) rfl false,
    encodeSymbol_ok (code := 0xC) rfl true⟩
  rintro c code rfl hcode
  exact ⟨symbolByte code dp, encodeSymbol_ok hcode dp, symbolByte_point code dp, symbolByte_zeros code dp,
    symbolByte_code code dp, toNat_symbolByte code dp⟩

end Sys2Proof.Proofs.Codec
end

section
/-! SUPPORT. A command that makes one register write (R76): what it leaves for each answer of the transport; and the commands
WRREG and WRREGT as such writes, or as the failed lookup (R77, R78, R80). -/

namespace Sys2Proof

/-- The register operand in a known register's address byte is that register (R64f). -/
theorem regOperand_regAddr (r : RegName) : regOperand (regAddr r) = .known r := regOperand_regField (r := .known r) rfl

end Sys2Proof

namespace Sys2Proof.Machine

/-- A command that is one register write, answered success: the pair is delivered and the records stay (R76). -/
theorem respond_writeRegister_success (s : State) (r : RegName) (v : Byte) {k : Nat} (hk : k < s.chips)
    (h : s.answerAt 0 = .success) :
    ∃ t, respond (s.writeRegister r v k) = .next t ∧ Delivered s t k (regAddr r) v ∧ t.records = s.records :=
  ⟨_, by rw [writeRegister_ok s r v hk, sendTo_eq, h, respond_eq], delivered_sent s hk (regAddr r) v h, rfl⟩

/-- A command that is one register write, failed by the transport (R76, R100). -/
theorem respond_writeRegister_transportError (s : State) (r : RegName) (v : Byte) {k : Nat} (hk : k < s.chips)
    (h : s.answerAt 0 = .transportError) :
    ∃ t, respond (s.writeRegister r v k) = .next t ∧ Undelivered s t k (regAddr r) v :=
  ⟨_, by rw [writeRegister_ok s r v hk, sendTo_eq, h, respond_eq], undelivered_sent s k (regAddr r) v h⟩

theorem exec_wrregt_known (s : State) (r : RegName) (v : Byte) (k : Int) :
    exec (.wrregt (.known r) v k) s = respond (s.writeRegister r v k) := rfl

/-- An unknown register ends `WRREG` before any effect (R77, R80). -/
theorem exec_wrreg_unknown (s : State) (a v : Byte) :
    exec (.wrreg (.unknown a) v) s = .next (s.answered (.error .invalidArgument)) := rfl

/-- The lookup comes before the chip index: the target is not read (R104). -/
theorem exec_wrregt_unknown (s : State) (a v : Byte) (k : Int) :
    exec (.wrregt (.unknown a) v k) s = .next (s.answered (.error .invalidArgument)) := rfl

/-- `WRREG` is `WRREGT` with the active chip as target (R78). -/
theorem exec_wrregt_active (s : State) (r : RegOperand) (v : Byte) :
    exec (.wrregt r v s.active) s = exec (.wrreg r v) s := rfl

end Sys2Proof.Machine
end

section
/-! PROOFS. The statements of 41_chain_write.md: the transaction builder, the register write, and WRREG and WRREGT. -/

namespace Sys2Proof.Proofs.ChainWrite

open Sys2Proof.Machine

/-- Settles O12: a bad chip index raises before the transmit, a good one makes one transmit of the built transaction, and the
response is what the transport answered. -/
theorem writeRegisterChecksBuildsAndTransmitsOnce : Obligations.WriteRegisterChecksBuildsAndTransmitsOnce := by
  refine fun s r v k => ⟨writeRegister_outOfRange s r v, ?_⟩
  rintro c rfl hc
  refine ⟨_, oneTransmit_sent s c (regAddr r) v, rfl, txnBytes_slotPair s.chips c (regAddr r) v, rfl, rfl, ?_⟩
  rw [writeRegister_ok s r v hc, sendTo_eq]
  cases s.answerAt 0 <;> rfl

/-- Settles O21: a known register is one write on the active chip, whichever register it is; an unknown one fails its
lookup. -/
theorem wrregWritesTheActiveChip : Obligations.WrregWritesTheActiveChip := by
  intro s v
  simp only [exec_wrreg_known]
  exact ⟨fun r => respond_writeRegister_success s r v, fun r => respond_writeRegister_transportError s r v,
    fun a => exec_wrreg_unknown s a v, fun r => decodeCmd_of_encode (i := .wrreg (.known r) v) rfl rfl⟩

/-- Settles O22: a known register is one write on the target chip if the chain has it; the lookup fails first. -/
theorem wrregtWritesTheTargetChip : Obligations.WrregtWritesTheTargetChip := by
  intro s v
  simp only [exec_wrregt_known]
  refine ⟨fun r _ => respond_writeRegister_success s r v, fun r _ => respond_writeRegister_transportError s r v,
    fun a => exec_wrregt_unknown s a v, fun r k hk => ?_, fun r => exec_wrregt_active s r v, fun r k => ?_⟩
  · rw [writeRegister_outOfRange s r v hk, respond_eq]
  · have hrow := decodeCmd_cmdWord .wrregt (regAddr r) v k
    rwa [decodeRow, regOperand_regAddr] at hrow

/-- Settles O11: the buffer has the shape R79 gives, and the builder writes no other field. -/
theorem buildTxnFillsThenOverwritesOneSlot : Obligations.BuildTxnFillsThenOverwritesOneSlot :=
  fun s k a d _ => ⟨txnBytes_slotPair s.chips k a d, rfl⟩

end Sys2Proof.Proofs.ChainWrite
end

section
/-! SUPPORT. A command that comes to one write on the active chip (§4.4, R16), for either answer of the transport; and the
power and display-test commands as such writes (R81 to R84). -/

namespace Sys2Proof.Machine

variable (s : State)

/-- A command that is one write on the active chip: its pair is delivered there, or the transport fails it (R76, R100). -/
theorem exec_of_writeActive {i : Instr} {r : RegName} {v : Byte} (hactive : s.active < s.chips)
    (hexec : exec i s = respond (s.writeActive r v)) :
    (s.answerAt 0 = .success →
      ∃ t, exec i s = .next t ∧ Delivered s t s.active (regAddr r) v ∧ t.records = s.records) ∧
    (s.answerAt 0 = .transportError → ∃ t, exec i s = .next t ∧ Undelivered s t s.active (regAddr r) v) := by
  rw [hexec]
  exact ⟨respond_writeRegister_success s r v hactive, respond_writeRegister_transportError s r v hactive⟩

theorem exec_startup : exec .startup s = respond (s.writeActive .shutdown 0x01) := rfl

theorem exec_shutdown : exec .shutdown s = respond (s.writeActive .shutdown 0x00) := rfl

theorem exec_teston : exec .teston s = respond (s.writeActive .displayTest 0x01) := rfl

theorem exec_testoff : exec .testoff s = respond (s.writeActive .displayTest 0x00) := rfl

end Sys2Proof.Machine
end

section
/-! PROOFS. The statements of 42_power_test.md: STARTUP, SHUTDOWN, TESTON and TESTOFF. -/

namespace Sys2Proof.Proofs.PowerTest

open Sys2Proof.Machine

/-- Settles O23: both commands are one write of `Shutdown` on the active chip, whose only failure is the transport's. -/
theorem startupAndShutdownWriteTheShutdownRegister : Obligations.StartupAndShutdownWriteTheShutdownRegister := by
  intro s hactive p hp
  have hexec : exec p.1 s = respond (s.writeActive .shutdown p.2) := by
    obtain rfl | rfl := List.mem_pair.mp hp
    · exact exec_startup s
    · exact exec_shutdown s
  obtain ⟨hsuccess, hfailure⟩ := exec_of_writeActive s hactive hexec
  exact ⟨hsuccess, hfailure, decodeCmd_of_encode rfl rfl, decodeCmd_of_encode rfl rfl⟩

/-- Settles O24: both commands are one write of `DisplayTest` on the active chip. -/
theorem displayTestCommandsWriteTheTestRegister : Obligations.DisplayTestCommandsWriteTheTestRegister := by
  intro s hactive p hp
  have hexec : exec p.1 s = respond (s.writeActive .displayTest p.2) := by
    obtain rfl | rfl := List.mem_pair.mp hp
    · exact exec_teston s
    · exact exec_testoff s
  obtain ⟨hsuccess, hfailure⟩ := exec_of_writeActive s hactive hexec
  exact ⟨hsuccess, hfailure, decodeCmd_of_encode rfl rfl, decodeCmd_of_encode rfl rfl⟩

end Sys2Proof.Proofs.PowerTest
end

section
/-! SUPPORT. The decode-mode commands as one write of `DecodeMode` and, only if it succeeded, the record (R85 to R88); and
what clearing digits leaves in the digit registers (R93). -/

namespace Sys2Proof.Machine

/-! ### The decode-mode commands -/

theorem exec_decnone (s : State) : exec .decnone s = respond (s.sendDecode 0x00) := rfl

theorem exec_decall (s : State) : exec .decall s = respond (s.sendDecode 0xFF) := rfl

/-- A sequence of another length than eight ends `SETDEC` before any effect (R85, R98). -/
theorem exec_setdec_error (s : State) {modes : List Bool} (h : modes.length ≠ 8) :
    exec (.setdec modes) s = .next (s.answered (.error .invalidArgument)) := by
  rw [exec, execSetdec, encodeSegments_error h, withOperand_error, respond_eq]

theorem answered_commitDecode (s : State) (k : Nat) (b : Byte) (r : Response) :
    (s.commitDecode k b).answered r = (s.answered r).commitDecode k b := rfl

/-- Committing a record is no part of what `Delivered` speaks of. -/
theorem Delivered.commitDecode {s t : State} {k : Nat} {a d : Byte} (h : Delivered s t k a d) (j : Nat) (b : Byte) :
    Delivered s (t.commitDecode j b) k a d where
  toOneTransmit := ⟨h.params, h.active, h.inputs, h.latchChip, h.answers, h.txCount⟩
  txbuf := h.txbuf
  history := h.history
  chipReg := h.chipReg
  shift := h.shift
  epoch := h.epoch

/-- A decode-mode command answered success: the mode byte is delivered and is now the record of the active chip alone
(R88). -/
theorem respond_sendDecode_success (s : State) (b : Byte) (hactive : s.active < s.chips)
    (hrecords : s.records.length = s.chips) (h : s.answerAt 0 = .success) :
    ∃ t, respond (s.sendDecode b) = .next t ∧ Delivered s t s.active (regAddr .decodeMode) b ∧
      t.records.length = s.records.length ∧ t.record s.active = { valid := true, modes := b } ∧
      ∀ k, k ≠ s.active → t.record k = s.record k := by
  have hrecord (k : Nat) : ((s.buildTxn s.active (regAddr .decodeMode) b).transmit.commitDecode s.active b).record k =
      if k = s.active then { valid := true, modes := b } else s.record k :=
    record_commitDecode _ (hrecords ▸ hactive) b k
  exact ⟨_, by rw [sendDecode_success s b hactive h, respond_eq, answered_commitDecode],
    (delivered_sent s hactive _ b h).commitDecode s.active b, List.length_set,
    (hrecord s.active).trans (if_pos rfl), fun k hk => (hrecord k).trans (if_neg hk)⟩

/-- A decode-mode command failed by the transport: the records stay (R88, R100). -/
theorem respond_sendDecode_transportError (s : State) (b : Byte) (hactive : s.active < s.chips)
    (h : s.answerAt 0 = .transportError) :
    ∃ t, respond (s.sendDecode b) = .next t ∧ Undelivered s t s.active (regAddr .decodeMode) b :=
  ⟨_, by rw [sendDecode_transportError s b hactive h, respond_eq], undelivered_sent s s.active _ b h⟩

/-! ### Clearing digits -/

/-- The blank byte of a digit whose chip has a record is chosen by the bit of that digit (R93). -/
theorem blankByte_of_record {s : State} {b : Byte} (h : s.record s.active = { valid := true, modes := b }) (n : Nat) :
    blankByte s n = if b.getLsbD n then 0x0F else 0x00 := by
  simp [blankByte, State.decv, State.dec, h]

theorem regAddr_digit_inj {m n : Fin 8} : regAddr (.digit m) = regAddr (.digit n) ↔ m = n :=
  ⟨fun h => RegName.digit.inj (regAddr_inj h), fun h => h ▸ rfl⟩

/-- Clearing digits while every transmit succeeds ends with `OK` and leaves its blank byte in every digit register of the
list on the active chip, the other digit registers as they were (R93). -/
theorem clearDigits_success (ns : List (Fin 8)) (s : State) (hactive : s.active < s.chips) (hw : s.Writable ns.length) :
    ∃ t, clearDigits ns s = (t, .ok) ∧ ∀ m : Fin 8, t.chipReg s.active (regAddr (.digit m)) =
      if m ∈ ns then blankByte s m else s.chipReg s.active (regAddr (.digit m)) := by
  induction ns generalizing s with
  | nil => exact ⟨s, rfl, fun m => by simp⟩
  | cons n ns ih =>
    have hanswer : s.answerAt 0 = .success := hw 0 (Nat.succ_pos _)
    obtain ⟨t, hclear, hreg⟩ := ih (s.buildTxn s.active (regAddr (.digit n)) (blankByte s n)).transmit hactive
      (hw.sent s.active _ _)
    refine ⟨t, (clearDigits_cons_success n ns s hactive hanswer).trans hclear, fun m => (hreg m).trans ?_⟩
    by_cases hmn : m = n
    · simp [hmn, reg_sent s hactive _ _ hanswer]
    · simp [hmn, reg_sent s hactive _ _ hanswer, regAddr_digit_inj]

/-- `CLEAR` with every transmit answered success leaves the blank byte in all eight digit registers of the active chip. -/
theorem exec_clear_success (s : State) (hactive : s.active < s.chips) (hw : s.Writable 8) :
    ∃ t, exec .clear s = .next t ∧ ∀ n : Fin 8, t.chipReg s.active (regAddr (.digit n)) = blankByte s n := by
  obtain ⟨t, hclear, hreg⟩ := clearDigits_success [0, 1, 2, 3, 4, 5, 6, 7] s hactive hw
  have hall (n : Fin 8) : n ∈ [0, 1, 2, 3, 4, 5, 6, 7] := by revert n; decide
  refine ⟨t.answered .ok, ?_, fun n => (hreg n).trans (if_pos (hall n))⟩
  rw [exec, execClear, hclear, respond_eq]

end Sys2Proof.Machine
end

section
/-! PROOFS. The statements of 43_decode_mode.md: SETDEC, DECNONE and DECALL, and CLEAR after the last two. -/

namespace Sys2Proof.Proofs.DecodeMode

open Sys2Proof.Machine

/-- Settles O25: the three commands send the packed modes as `DecodeMode`, and the byte that was sent is the record. -/
theorem decodeModeCommandsWriteRegisterAndRecord : Obligations.DecodeModeCommandsWriteRegisterAndRecord := by
  intro s hactive hrecords
  refine ⟨fun modes i hlength hi => ?_, fun modes => exec_setdec_error s, encodeSegments_ok rfl, encodeSegments_ok rfl,
    decodeCmd_of_encode rfl rfl, decodeCmd_of_encode rfl rfl⟩
  have hexec : exec i s = respond (s.sendDecode (byteOfBits modes)) := by
    obtain rfl | ⟨rfl, rfl⟩ | ⟨rfl, rfl⟩ := hi
    · exact exec_setdec_ok s (encodeSegments_ok hlength)
    · exact exec_decnone s
    · exact exec_decall s
  have hword : decodeCmd (cmdWord 0x20 0x00 (byteOfBits modes) 0x00) = .ok (.setdec modes) :=
    decodeCmd_of_encode (i := .setdec modes) (beq_iff_eq.mpr hlength) rfl
  rw [hexec]
  cases hanswer : s.answerAt 0 with
  | success =>
    obtain ⟨t, hnext, hdelivered, hlen, hrecord, hother⟩ :=
      respond_sendDecode_success s (byteOfBits modes) hactive hrecords hanswer
    have hvalid : t.decv s.active = true := congrArg DecodeRecord.valid hrecord
    have hmodes (n : Nat) (hn : n < 8) : t.dec s.active n = modes.getD n false := by
      rw [State.dec, hrecord, getLsbD_byteOfBits modes hn]
    exact ⟨t, _, hnext, encodeSegments_ok hlength, fun _ => ⟨hdelivered, hlen, hvalid, hmodes, hother⟩, nofun, hword⟩
  | transportError =>
    obtain ⟨t, hnext, hundelivered⟩ := respond_sendDecode_transportError s (byteOfBits modes) hactive hanswer
    exact ⟨t, _, hnext, encodeSegments_ok hlength, nofun, fun _ => hundelivered, hword⟩

/-- Settles O35: the record that the first command left is the one from which `CLEAR` chooses its blank bytes. -/
theorem clearFollowsTheDecodeModeCommand : Obligations.ClearFollowsTheDecodeModeCommand := by
  intro s hactive hrecords hw p hp
  obtain ⟨b, hexec, hblank⟩ : ∃ b : Byte, exec p.1 s = respond (s.sendDecode b) ∧
      ∀ n : Fin 8, (if b.getLsbD n then 0x0F else 0x00) = p.2 := by
    obtain rfl | rfl := List.mem_pair.mp hp
    · exact ⟨0xFF, exec_decall s, by decide⟩
    · exact ⟨0x00, exec_decnone s, by decide⟩
  obtain ⟨t, hnext, hdelivered, -, hrecord, -⟩ :=
    respond_sendDecode_success s b hactive hrecords (hw 0 (by omega))
  have hactive' : t.active < t.chips := by rwa [hdelivered.active, hdelivered.chips]
  have hw' : t.Writable 8 := fun j hj => by
    rw [hdelivered.answerAt]
    exact hw (j + 1) (by omega)
  obtain ⟨u, hclear, hreg⟩ := exec_clear_success t hactive' hw'
  rw [hdelivered.active] at hreg
  rw [← hdelivered.active] at hrecord
  exact ⟨t, u, hexec.trans hnext, hclear, fun n => calc
    u.chipReg s.active (regAddr (.digit n)) = blankByte t n := hreg n
    _ = if b.getLsbD n then 0x0F else 0x00 := blankByte_of_record hrecord n
    _ = p.2 := hblank n⟩

end Sys2Proof.Proofs.DecodeMode
end

section
/-! SUPPORT. The digit commands as one write of a digit register, or the operand check that fails (R89 to R92); and a
stretch of `clearDisplay` whose writes all succeed: what it sends and what it leaves (R93). -/

namespace Sys2Proof.Machine

/-! ### One digit -/

/-- A bad digit number ends `SETSEG` before the segments are read (R90, R104). -/
theorem exec_setseg_outOfRange (s : State) {n : Int} (h : ¬ (0 ≤ n ∧ n ≤ 7)) (segs : List Bool) :
    exec (.setseg n segs) s = .next (s.answered (.error .outOfRange)) := by
  rw [exec, execSetseg, digitOperand_error h, withOperand_error, respond_eq]

theorem exec_setsegb_outOfRange (s : State) {n : Int} (h : ¬ (0 ≤ n ∧ n ≤ 7)) (b : Byte) :
    exec (.setsegb n b) s = .next (s.answered (.error .outOfRange)) := by
  rw [exec, execSetsegb, digitOperand_error h, withOperand_error, respond_eq]

/-- A bad digit number ends `SETSYM` before the symbol is looked up (R92, R104). -/
theorem exec_setsym_outOfRange (s : State) {n : Int} (h : ¬ (0 ≤ n ∧ n ≤ 7)) (sym : List Char) (dp : Bool) :
    exec (.setsym n sym dp) s = .next (s.answered (.error .outOfRange)) := by
  rw [exec, execSetsym, digitOperand_error h, withOperand_error, respond_eq]

/-- A sequence of another length than eight ends `SETSEG` before any effect (R90, R98). -/
theorem exec_setseg_invalidArgument (s : State) (n : Fin 8) {segs : List Bool} (h : segs.length ≠ 8) :
    exec (.setseg n.val segs) s = .next (s.answered (.error .invalidArgument)) := by
  rw [exec, execSetseg, digitOperand_ok, withOperand_ok, encodeSegments_error h, withOperand_error, respond_eq]

/-- A symbol without a code ends `SETSYM` before any effect (R92, R98). -/
theorem exec_setsym_invalidArgument (s : State) (n : Fin 8) {sym : List Char} (h : symbolCode sym = none) (dp : Bool) :
    exec (.setsym n.val sym dp) s = .next (s.answered (.error .invalidArgument)) := by
  rw [exec, execSetsym, digitOperand_ok, withOperand_ok, encodeSymbol_error h, withOperand_error, respond_eq]

theorem exec_setseg_digit (s : State) (n : Fin 8) {segs : List Bool} {b : Byte} (h : encodeSegments segs = .ok b) :
    exec (.setseg n.val segs) s = respond (s.writeActive (.digit n) b) :=
  (exec_setseg_ok s h n.val).trans (exec_setsegb_digit s n b)

theorem exec_setsym_digit (s : State) (n : Fin 8) {sym : List Char} {dp : Bool} {b : Byte}
    (h : encodeSymbol sym dp = .ok b) : exec (.setsym n.val sym dp) s = respond (s.writeActive (.digit n) b) :=
  (exec_setsym_ok s h n.val).trans (exec_setsegb_digit s n b)

/-! ### Clearing a stretch of digits -/

theorem andThen_assoc (x : Reply) (f g : State → Reply) :
    (x.andThen f).andThen g = x.andThen fun t => (f t).andThen g := by
  obtain ⟨t, r⟩ := x
  cases r <;> rfl

/-- Clearing two stretches is clearing the one, then, unless that raised, the other. -/
theorem clearDigits_append (ns ms : List (Fin 8)) (s : State) :
    clearDigits (ns ++ ms) s = (clearDigits ns s).andThen (clearDigits ms) := by
  induction ns generalizing s with
  | nil => rfl
  | cons n ns ih => simp only [List.cons_append, clearDigits, andThen_assoc, ih]

/-- The transaction that blanks digit `n` of the active chip in its recorded mode (R75, R93). -/
def blankTxn (s : State) (n : Fin 8) : List Byte := txnBytes s.chips s.active (regAddr (.digit n)) (blankByte s n)

theorem blankTxn_slotPair (s : State) (n : Fin 8) :
    SlotPair s.chips s.active (regAddr (.digit n)) (blankByte s n) (blankTxn s n) := txnBytes_slotPair ..

/-- `t` is `s` after the blanking transactions of the digits `ns` of the active chip, in that order, each answered
success. Of the registers of those digits it says nothing; that is `clearDigits_success`. -/
structure Blanked (s t : State) (ns : List (Fin 8)) : Prop where
  params : t.params = s.params
  active : t.active = s.active
  records : t.records = s.records
  inputs : t.inputs = s.inputs
  latchChip : t.latchChip = s.latchChip
  answers : t.answers = s.answers.drop ns.length
  txCount : t.txCount = s.txCount + ns.length
  txbuf : (s.txbuf :: ns.map (blankTxn s)).getLast? = some t.txbuf
  history : t.history = s.history ++ (ns.map (blankTxn s)).map (.transaction · .success)
  epoch : t.chain.epoch = s.chain.epoch
  chipReg : ∀ k a, (k ≠ s.active ∨ ∀ n ∈ ns, a ≠ regAddr (.digit n)) → t.chipReg k a = s.chipReg k a

theorem Blanked.nil (s : State) : Blanked s s [] := by constructor <;> simp

/-- A successful blanking transaction, and the rest of the stretch from the state it leaves. -/
theorem Blanked.cons {s t : State} {n : Fin 8} {ns : List (Fin 8)} (hactive : s.active < s.chips)
    (hanswer : s.answerAt 0 = .success)
    (h : Blanked (s.buildTxn s.active (regAddr (.digit n)) (blankByte s n)).transmit t ns) : Blanked s t (n :: ns) where
  params := h.params
  active := h.active
  records := h.records
  inputs := h.inputs
  latchChip := h.latchChip
  answers := by simpa using h.answers
  txCount := by simpa [Nat.add_assoc, Nat.add_comm] using h.txCount
  txbuf := List.getLast?_cons_cons.trans h.txbuf
  history := by
    have htransmit : (s.buildTxn s.active (regAddr (.digit n)) (blankByte s n)).transmit.history =
        s.history ++ [.transaction (blankTxn s n) .success] := by simp [hanswer, blankTxn]
    rw [h.history, htransmit, List.append_assoc]
    rfl
  epoch := h.epoch.trans (epoch_sent s hactive _ _ hanswer)
  chipReg k a hka := by
    have hother : k ≠ s.active ∨ ∀ m ∈ ns, a ≠ regAddr (.digit m) :=
      hka.imp_right fun ha m hm => ha m (List.mem_cons_of_mem n hm)
    have hnot : ¬ (k = s.active ∧ a = regAddr (.digit n)) := fun ⟨hk, ha⟩ =>
      hka.elim (· hk) fun hne => hne n List.mem_cons_self ha
    rw [h.chipReg k a hother, reg_sent s hactive _ _ hanswer, if_neg fun hc => hnot hc.2]

/-- A stretch of `clearDisplay` that ends with `OK` made exactly its blanking transactions, all of them good. -/
theorem blanked_of_clearDigits {ns : List (Fin 8)} {s t : State} (hactive : s.active < s.chips)
    (h : clearDigits ns s = (t, .ok)) : Blanked s t ns := by
  induction ns generalizing s with
  | nil =>
    obtain rfl : s = t := congrArg Prod.fst h
    exact .nil s
  | cons n ns ih =>
    cases hanswer : s.answerAt 0 with
    | success =>
      rw [clearDigits_cons_success n ns s hactive hanswer] at h
      exact Blanked.cons hactive hanswer (ih hactive h)
    | transportError =>
      rw [clearDigits_cons_transportError n ns s hactive hanswer] at h
      cases h

theorem Blanked.chips {s t : State} {ns : List (Fin 8)} (h : Blanked s t ns) : t.chips = s.chips :=
  congrArg Params.chips h.params

theorem Blanked.blankByte {s t : State} {ns : List (Fin 8)} (h : Blanked s t ns) (n : Nat) :
    blankByte t n = blankByte s n := by
  have hrecord : t.record t.active = s.record s.active := by rw [State.record, State.record, h.records, h.active]
  unfold Machine.blankByte State.decv State.dec
  rw [hrecord]

/-- After the answers of the stretch the next one is the one behind them. -/
theorem Blanked.answerAt {s t : State} {ns : List (Fin 8)} (h : Blanked s t ns) (j : Nat) :
    t.answerAt j = s.answerAt (ns.length + j) := by
  simp only [State.answerAt, h.answers, h.txCount, List.getElem?_drop, Nat.add_assoc]

/-- The blanking transaction of digit `n` that the transport fails after the good ones of `ns`: the command ends there,
whatever digits `ms` are left, and nothing is known of the chain (R43, R93, R108). -/
theorem respond_clearDigits_transportError {ns : List (Fin 8)} {s t : State} (hactive : s.active < s.chips)
    (h : clearDigits ns s = (t, .ok)) (hanswer : s.answerAt ns.length = .transportError) (n : Fin 8)
    (ms : List (Fin 8)) :
    ∃ u, respond (clearDigits (ns ++ n :: ms) s) = .next u ∧
      Undelivered t u t.active (regAddr (.digit n)) (blankByte t n) ∧ u.chain.Unknown (t.chain.epoch + 1) := by
  have hblanked := blanked_of_clearDigits hactive h
  have hactive' : t.active < t.chips := by rwa [hblanked.active, hblanked.chips]
  have hanswer' : t.answerAt 0 = .transportError := (hblanked.answerAt 0).trans hanswer
  refine ⟨_, ?_, undelivered_sent t t.active _ _ hanswer', unknown_sent t hactive' _ _ hanswer'⟩
  rw [clearDigits_append, h, andThen_ok, clearDigits_cons_transportError n ms t hactive' hanswer', respond_eq]

/-! ### All eight digits -/

theorem exec_clear (s : State) : exec .clear s = respond (clearDigits (List.finRange 8) s) := rfl

theorem finRange_split (m : Fin 8) :
    List.finRange 8 = (List.finRange 8).take m ++ m :: (List.finRange 8).drop (m + 1) := by
  revert m; decide

/-- The transactions of the first digits, in their order. -/
theorem blankTxn_getElem? (s : State) {m : Nat} {n : Fin 8} (h : n.val < m) :
    (((List.finRange 8).take m).map (blankTxn s))[n.val]? = some (blankTxn s n) := by
  simp [h]

end Sys2Proof.Machine
end

section
/-! PROOFS. The statements of 44_digits.md: SETSEG, SETSEGB, SETSYM, and CLEAR with and without a transport failure. -/

namespace Sys2Proof.Proofs.Digits

open Sys2Proof.Machine

/-- Settles O26: the digit number is checked, then the length; a packed byte is one write of the digit register. -/
theorem setsegWritesThePackedSegments : Obligations.SetsegWritesThePackedSegments := by
  refine fun s segs hactive => ⟨fun n b hb => exec_of_writeActive s hactive (exec_setseg_digit s n hb),
    fun n hn => exec_setseg_outOfRange s hn segs, fun n => exec_setseg_invalidArgument s n, fun a b => ?_⟩
  refine ⟨bitsOfByte b, ?_, decodeCmd_cmdWord .setseg a b 0x00⟩
  rw [encodeSegments_ok (bitsOfByte_length b), byteOfBits_bitsOfByte]

/-- Settles O27: every byte is one write of the digit register; only the digit number is checked. -/
theorem setsegbWritesTheByte : Obligations.SetsegbWritesTheByte := fun s b hactive =>
  ⟨fun n => exec_of_writeActive s hactive (exec_setsegb_digit s n b), fun _ hn => exec_setsegb_outOfRange s hn b,
    fun a => decodeCmd_cmdWord .setsegb a b 0x00⟩

/-- Settles O28: the digit number is checked, then the symbol; a symbol byte is one write of the digit register. -/
theorem setsymWritesTheSymbolByte : Obligations.SetsymWritesTheSymbolByte := by
  refine fun s sym dp hactive => ⟨fun n b hb => exec_of_writeActive s hactive (exec_setsym_digit s n hb),
    fun n hn => exec_setsym_outOfRange s hn sym dp,
    fun n h => exec_setsym_invalidArgument s n (symbolCode_eq_none h) dp, fun a c _ => ?_⟩
  have hrow := decodeCmd_cmdWord .setsym a c (dpField dp)
  rwa [decodeRow, dpField_reserved, getLsbD_dpField] at hrow

/-- Settles O29: with eight answers of success all of the eight digits are one good stretch. -/
theorem clearWritesEightBlankDigits : Obligations.ClearWritesEightBlankDigits := by
  intro s hactive hw
  obtain ⟨t, hclear, hdigit⟩ := clearDigits_success (List.finRange 8) s hactive hw
  have h := blanked_of_clearDigits hactive hclear
  refine ⟨t.answered .ok, (List.finRange 8).map (blankTxn s), ?_, by simp,
    fun n => ⟨_, by simp, blankTxn_slotPair s n⟩, congrArg (· ++ _) h.history, h.txbuf,
    fun n => (hdigit n).trans (if_pos (List.mem_finRange n)),
    fun k a hka => h.chipReg k a (hka.imp_right fun ha n _ => ha n),
    h.params, h.active, h.records, h.inputs, h.latchChip, h.answers, h.txCount, h.epoch,
    encodeSymbol_ok (code := 0xF) rfl false, decodeCmd_of_encode rfl rfl⟩
  rw [exec_clear, hclear, respond_eq]

/-- Settles O30: the digits before the `m`-th are a good stretch, whose transactions the failed one follows. -/
theorem clearStopsAtTheFirstTransportError : Obligations.ClearStopsAtTheFirstTransportError := by
  intro s m hactive hw hanswer
  have hlength : ((List.finRange 8).take m).length = m := by simp
  obtain ⟨t, hclear, -⟩ := clearDigits_success ((List.finRange 8).take m) s hactive (hlength.symm ▸ hw)
  have h := blanked_of_clearDigits hactive hclear
  obtain ⟨u, hnext, hu, hunknown⟩ := respond_clearDigits_transportError hactive hclear (hlength.symm ▸ hanswer) m
    ((List.finRange 8).drop (m + 1))
  rw [← finRange_split, ← exec_clear] at hnext
  refine ⟨u, ((List.finRange 8).take m).map (blankTxn s), hnext, by simp,
    fun n hn => ⟨_, blankTxn_getElem? s hn, blankTxn_slotPair s n⟩, ?_, by rw [hu.history, h.history],
    hu.active.trans h.active, hu.records.trans h.records, hu.params.trans h.params,
    by rw [hu.txCount, h.txCount, hlength], h.epoch ▸ hunknown⟩
  have htxbuf := hu.txbuf
  rwa [h.chips, h.active, h.blankByte] at htxbuf

end Sys2Proof.Proofs.Digits
end

section
/-! SUPPORT. The brightness, scan-limit and active-chip commands: the operand check that fails (R94 to R96), and the active
chip that `SETACT` selects. -/

namespace Sys2Proof.Machine

variable (s : State)

theorem exec_setint_outOfRange {v : Int} (h : ¬ (0 ≤ v ∧ v ≤ 15)) :
    exec (.setint v) s = .next (s.answered (.error .outOfRange)) := by
  rw [exec, execSetint, intensityOperand, if_neg h, withOperand_error, respond_eq]

theorem exec_setscan_outOfRange {n : Int} (h : ¬ (1 ≤ n ∧ n ≤ 8)) :
    exec (.setscan n) s = .next (s.answered (.error .outOfRange)) := by
  rw [exec, execSetscan, scanLimitOperand, if_neg h, withOperand_error, respond_eq]

/-- `SETACT` with a chip of the chain writes `ACTIVE` and answers (R96). -/
theorem exec_setact_ok {k : Nat} (hk : k < s.chips) :
    exec (.setact k) s = .next ({ s with active := k }.answered .ok) := by
  rw [exec, execSetact, chipOperand_ok hk, withOperand_ok, done, respond_eq]

theorem exec_setact_outOfRange {i : Int} (h : ¬ (0 ≤ i ∧ i < s.chips)) :
    exec (.setact i) s = .next (s.answered (.error .outOfRange)) := by
  rw [exec, execSetact, chipOperand_error h, withOperand_error, respond_eq]

end Sys2Proof.Machine
end

section
/-! PROOFS. The statements of 45_config.md: SETINT, SETSCAN and SETACT. -/

namespace Sys2Proof.Proofs.Config

open Sys2Proof.Machine

/-- Settles O31: a brightness step in range is its own data byte, in one write on the active chip. -/
theorem setintWritesTheIntensityRegister : Obligations.SetintWritesTheIntensityRegister := by
  refine fun s v hactive => ⟨?_, exec_setint_outOfRange s, fun a => decodeCmd_cmdWord .setint a 0x00 0x00⟩
  rintro ⟨h0, h15⟩
  lift v to Nat using h0
  have hv : v ≤ 15 := by omega
  have hbyte : (BitVec.ofNat 8 v).toNat = v := Nat.mod_eq_of_lt (by omega)
  exact ⟨BitVec.ofNat 8 v, congrArg _ hbyte, exec_of_writeActive s hactive (exec_setint_ok s hv)⟩

/-- Settles O32: the data byte is one less than a digit count in range, in one write on the active chip. -/
theorem setscanWritesOneLessThanTheDigitCount : Obligations.SetscanWritesOneLessThanTheDigitCount := by
  refine fun s n hactive => ⟨?_, exec_setscan_outOfRange s, fun a => decodeCmd_cmdWord .setscan a 0x00 0x00⟩
  rintro ⟨h1, h8⟩
  lift n to Nat using by omega
  have hn1 : 1 ≤ n := by omega
  have hn8 : n ≤ 8 := by omega
  have hbyte : (BitVec.ofNat 8 (n - 1)).toNat = n - 1 := Nat.mod_eq_of_lt (by omega)
  exact ⟨BitVec.ofNat 8 (n - 1), by rw [hbyte, Nat.cast_pred hn1],
    exec_of_writeActive s hactive (exec_setscan_ok s hn1 hn8)⟩

/-- Settles O33: the index is checked against the chain; one that passes is written to `ACTIVE`, another raises. -/
theorem setactSelectsTheActiveChip : Obligations.SetactSelectsTheActiveChip := by
  refine fun s i => ⟨?_, exec_setact_outOfRange s, fun a => decodeCmd_cmdWord .setact a 0x00 0x00⟩
  rintro k rfl hk
  exact exec_setact_ok s hk

end Sys2Proof.Proofs.Config
end

section
/-! SUPPORT. Why a command can fail its validation, and that it then has no effect (R98, R99, R103). -/

namespace Sys2Proof.Machine

/-! ### A bad operand fails its check -/

theorem not_decide_eq_true_iff {p : Prop} [Decidable p] : (!decide p) = true ↔ ¬ p := by simp

/-- The command ends with a validation failure, and that is all it does (R103). -/
def FailsValidation (i : Instr) (s : State) : Prop :=
  ∃ e, (e = .invalidArgument ∨ e = .outOfRange) ∧ exec i s = .next (s.answered (.error e))

theorem FailsValidation.of_invalidArgument {i : Instr} {s : State}
    (h : exec i s = .next (s.answered (.error .invalidArgument))) : FailsValidation i s := ⟨_, .inl rfl, h⟩

theorem FailsValidation.of_outOfRange {i : Instr} {s : State}
    (h : exec i s = .next (s.answered (.error .outOfRange))) : FailsValidation i s := ⟨_, .inr rfl, h⟩

theorem exists_digit {n : Int} (h : 0 ≤ n ∧ n ≤ 7) : ∃ m : Fin 8, n = m.val :=
  ⟨⟨n.toNat, by omega⟩, by simp; omega⟩

theorem exec_wrregt_outOfRange (s : State) (r : RegName) (v : Byte) {k : Int} (h : ¬ (0 ≤ k ∧ k < s.chips)) :
    exec (.wrregt (.known r) v k) s = .next (s.answered (.error .outOfRange)) := by
  rw [exec_wrregt_known, writeRegister_outOfRange s r v h, respond_eq]

/-- An operand that R98 names fails its check, if the digit number before it did not fail already. -/
theorem failsValidation_of_hasInvalidOperand {i : Instr} (s : State) (h : i.hasInvalidOperand = true) :
    FailsValidation i s := by
  cases i with
  | wrreg reg v =>
    cases reg with
    | known r => cases h
    | unknown a => exact .of_invalidArgument (exec_wrreg_unknown s a v)
  | wrregt reg v k =>
    cases reg with
    | known r => cases h
    | unknown a => exact .of_invalidArgument (exec_wrregt_unknown s a v k)
  | setdec modes => exact .of_invalidArgument (exec_setdec_error s (bne_iff_ne.1 h))
  | setseg n segs =>
    by_cases hn : 0 ≤ n ∧ n ≤ 7
    · obtain ⟨m, rfl⟩ := exists_digit hn
      exact .of_invalidArgument (exec_setseg_invalidArgument s m (bne_iff_ne.1 h))
    · exact .of_outOfRange (exec_setseg_outOfRange s hn segs)
  | setsym n sym dp =>
    by_cases hn : 0 ≤ n ∧ n ≤ 7
    · obtain ⟨m, rfl⟩ := exists_digit hn
      exact .of_invalidArgument (exec_setsym_invalidArgument s m (Option.isNone_iff_eq_none.1 h) dp)
    · exact .of_outOfRange (exec_setsym_outOfRange s hn sym dp)
  | _ => cases h

/-- An operand that R99 names fails its check, if the register lookup before it did not fail already. -/
theorem failsValidation_of_hasOperandOutOfRange {i : Instr} (s : State)
    (h : i.hasOperandOutOfRange s.chips = true) : FailsValidation i s := by
  cases i with
  | wrregt reg v k =>
    cases reg with
    | known r => exact .of_outOfRange (exec_wrregt_outOfRange s r v (not_decide_eq_true_iff.1 h))
    | unknown a => exact .of_invalidArgument (exec_wrregt_unknown s a v k)
  | setseg n segs => exact .of_outOfRange (exec_setseg_outOfRange s (not_decide_eq_true_iff.1 h) segs)
  | setsegb n b => exact .of_outOfRange (exec_setsegb_outOfRange s (not_decide_eq_true_iff.1 h) b)
  | setsym n sym dp => exact .of_outOfRange (exec_setsym_outOfRange s (not_decide_eq_true_iff.1 h) sym dp)
  | setint v => exact .of_outOfRange (exec_setint_outOfRange s (not_decide_eq_true_iff.1 h))
  | setscan n => exact .of_outOfRange (exec_setscan_outOfRange s (not_decide_eq_true_iff.1 h))
  | setact k => exact .of_outOfRange (exec_setact_outOfRange s (not_decide_eq_true_iff.1 h))
  | _ => cases h

/-! ### A validation failure has a cause -/

/-- What can make a command end with a validation failure: a bad operand, or an active index that R16 excludes. -/
inductive ValidationCause (i : Instr) (s : State) : ErrorKind → Prop where
  | invalidOperand (h : i.hasInvalidOperand = true) : ValidationCause i s .invalidArgument
  | operandOutOfRange (h : i.hasOperandOutOfRange s.chips = true) : ValidationCause i s .outOfRange
  | activeOutOfRange (h : s.chips ≤ s.active) : ValidationCause i s .outOfRange

/-- If the reply is a validation failure, it has a cause and the state is untouched (R103). -/
def Reply.Validated (i : Instr) (s : State) (x : Reply) : Prop :=
  ∀ e, x.2 = .error e → e ≠ .transportError → x.1 = s ∧ ValidationCause i s e

section
variable {i : Instr} {s : State}

theorem Reply.Validated.ok (t : State) : Reply.Validated i s (t, .ok) := nofun

theorem Reply.Validated.transportError (t : State) : Reply.Validated i s (t, .error .transportError) :=
  fun _ he hne => absurd (Response.error.inj he).symm hne

theorem ValidationCause.validated {e : ErrorKind} (h : ValidationCause i s e) : Reply.Validated i s (s, .error e) :=
  fun _ he _ => ⟨rfl, Response.error.inj he ▸ h⟩

theorem Reply.Validated.withOperand {α : Type} {check : Except ErrorKind α} {f : α → Reply}
    (hcheck : ∀ e, check = .error e → ValidationCause i s e) (h : ∀ a, Reply.Validated i s (f a)) :
    Reply.Validated i s (withOperand check s f) := by
  cases check with
  | ok a => exact h a
  | error e => exact (hcheck e rfl).validated

theorem Reply.Validated.andThen {x : Reply} {f : State → Reply} (h : x.Validated i s)
    (hf : ∀ t, Reply.Validated i s (f t)) : Reply.Validated i s (x.andThen f) :=
  andThen_cases (fun _ _ _ => h) fun t _ => hf t

/-- A check that tests its operand refuses it only if the test fails. -/
theorem ValidationCause.of_ite {α : Type} {p : Prop} [Decidable p] {a : α} {e : ErrorKind}
    (h : ¬ p → ValidationCause i s e) :
    ∀ e', (if p then Except.ok a else .error e) = .error e' → ValidationCause i s e' := by
  intro e' he
  split at he
  case isTrue => cases he
  case isFalse hp => exact Except.error.inj he ▸ h hp

/-- A bound that R99 names. -/
theorem ValidationCause.of_bound {p : Prop} [Decidable p] (hi : i.hasOperandOutOfRange s.chips = !decide p)
    (hp : ¬ p) : ValidationCause i s .outOfRange := .operandOutOfRange (hi.trans (not_decide_eq_true_iff.2 hp))

/-- The length that R98 (a) names. -/
theorem ValidationCause.of_length {bits : List Bool} (hi : i.hasInvalidOperand = (bits.length != 8))
    (hbits : bits.length ≠ 8) : ValidationCause i s .invalidArgument :=
  .invalidOperand (hi.trans (bne_iff_ne.2 hbits))

theorem ValidationCause.of_lookupRegister {reg : RegOperand} (h : ∀ a, reg = .unknown a → i.hasInvalidOperand = true) :
    ∀ e, lookupRegister reg = .error e → ValidationCause i s e := by
  intro e he
  cases reg with
  | known r => cases he
  | unknown a => exact Except.error.inj he ▸ .invalidOperand (h a rfl)

theorem ValidationCause.of_encodeSymbol {sym : List Char} {dp : Bool}
    (h : (symbolCode sym).isNone = true → i.hasInvalidOperand = true) :
    ∀ e, encodeSymbol sym dp = .error e → ValidationCause i s e := by
  intro e he
  unfold encodeSymbol at he
  split at he
  case h_1 => cases he
  case h_2 hsym => exact Except.error.inj he ▸ .invalidOperand (h (Option.isNone_iff_eq_none.2 hsym))

/-- `WriteRegister` validates the chip index alone (R76). -/
theorem Reply.Validated.writeRegister (r : RegName) (v : Byte) {k : Int}
    (hk : ¬ (0 ≤ k ∧ k < s.chips) → ValidationCause i s .outOfRange) :
    Reply.Validated i s (s.writeRegister r v k) := by
  refine .withOperand (.of_ite hk) fun c => ?_
  rw [sendTo_eq]
  cases s.answerAt 0 with
  | success => exact .ok _
  | transportError => exact .transportError _

theorem Reply.Validated.writeActive (r : RegName) (v : Byte) : Reply.Validated i s (s.writeActive r v) :=
  .writeRegister r v fun h => .activeOutOfRange (by omega)

theorem Reply.Validated.sendDecode (b : Byte) : Reply.Validated i s (s.sendDecode b) :=
  (Reply.Validated.writeActive .decodeMode b).andThen fun _ => .ok _

/-- With the active chip in the chain, clearing digits fails by the transport alone (R93). -/
theorem clearDigits_error {ns : List (Fin 8)} {t : State} (hactive : t.active < t.chips) {e : ErrorKind}
    (h : (clearDigits ns t).2 = .error e) : e = .transportError := by
  induction ns generalizing t with
  | nil => cases h
  | cons n ns ih =>
    cases ha : t.answerAt 0 with
    | success =>
      rw [clearDigits_cons_success n ns t hactive ha] at h
      refine ih ?_ h
      exact hactive
    | transportError =>
      rw [clearDigits_cons_transportError n ns t hactive ha] at h
      exact (Response.error.inj h).symm

/-- With the active chip outside the chain, the first digit fails its chip-index check. -/
theorem clearDigits_cons_outOfRange (n : Fin 8) (ns : List (Fin 8)) (s : State) (h : s.chips ≤ s.active) :
    clearDigits (n :: ns) s = (s, .error .outOfRange) := by
  rw [clearDigits, clearValue_eq, withOperand_ok, State.writeActive,
    writeRegister_outOfRange s _ _ (by omega), andThen_error]

theorem Reply.Validated.clearDigits (ns : List (Fin 8)) : Reply.Validated i s (clearDigits ns s) := by
  by_cases hactive : s.active < s.chips
  · exact fun e he hne => absurd (clearDigits_error hactive he) hne
  · cases ns with
    | nil => exact .ok s
    | cons n ns =>
      rw [clearDigits_cons_outOfRange n ns s (Nat.not_lt.1 hactive)]
      exact (ValidationCause.activeOutOfRange (Nat.not_lt.1 hactive)).validated

end

/-- Every host command's reply, if it is a validation failure, has a cause and no effect (R98, R99, R103). -/
theorem exec_command_validated {i : Instr} (h : i.isPacket = false) (s : State) :
    ∃ x, Reply.Validated i s x ∧ exec i s = .next (x.1.answered x.2) := by
  cases i with
  | wrreg reg v => exact ⟨_, .withOperand (.of_lookupRegister (by rintro a rfl; rfl)) fun r => .writeActive r v, rfl⟩
  | wrregt reg v k =>
    exact ⟨_, .withOperand (.of_lookupRegister (by rintro a rfl; rfl)) fun r => .writeRegister r v (.of_bound rfl), rfl⟩
  | startup => exact ⟨_, .writeActive .shutdown 0x01, rfl⟩
  | shutdown => exact ⟨_, .writeActive .shutdown 0x00, rfl⟩
  | teston => exact ⟨_, .writeActive .displayTest 0x01, rfl⟩
  | testoff => exact ⟨_, .writeActive .displayTest 0x00, rfl⟩
  | setdec modes => exact ⟨_, .withOperand (.of_ite (.of_length rfl)) fun b => .sendDecode b, rfl⟩
  | decnone => exact ⟨_, .sendDecode 0x00, rfl⟩
  | decall => exact ⟨_, .sendDecode 0xFF, rfl⟩
  | setseg n segs =>
    exact ⟨_, .withOperand (.of_ite (.of_bound rfl)) fun r =>
      .withOperand (.of_ite (.of_length rfl)) fun b => .writeActive r b, rfl⟩
  | setsegb n b => exact ⟨_, .withOperand (.of_ite (.of_bound rfl)) fun r => .writeActive r b, rfl⟩
  | setsym n sym dp =>
    exact ⟨_, .withOperand (.of_ite (.of_bound rfl)) fun r =>
      .withOperand (.of_encodeSymbol id) fun b => .writeActive r b, rfl⟩
  | clear => exact ⟨_, .clearDigits [0, 1, 2, 3, 4, 5, 6, 7], rfl⟩
  | setint v => exact ⟨_, .withOperand (.of_ite (.of_bound rfl)) fun b => .writeActive .intensity b, rfl⟩
  | setscan n => exact ⟨_, .withOperand (.of_ite (.of_bound rfl)) fun b => .writeActive .scanLimit b, rfl⟩
  | setact k => exact ⟨_, .withOperand (.of_ite (.of_bound rfl)) fun _ => .ok _, rfl⟩
  | _ => cases h

/-- A host command whose last event is a validation failure had a cause for it, and no effect. -/
theorem exec_validation_failure {i : Instr} {s t : State} {e : ErrorKind} (hi : i.isPacket = false)
    (h : exec i s = .next t) (hlast : t.history.getLast? = some (.response (.error e))) (he : e ≠ .transportError) :
    t = s.answered (.error e) ∧ ValidationCause i s e := by
  obtain ⟨x, hx, hexec⟩ := exec_command_validated hi s
  obtain rfl := Host.Outcome.next.inj (h.symm.trans hexec)
  have hresponse : x.2 = .error e := Event.response.inj (Option.some.inj (List.getLast?_concat.symm.trans hlast))
  obtain ⟨hstate, hcause⟩ := hx e hresponse he
  exact ⟨by rw [hstate, hresponse], hcause⟩

end Sys2Proof.Machine
end

section
/-! SUPPORT. The exchange of a host command with the transport: the transactions it hands over and their answers (R42,
R76, R108). -/

namespace Sys2Proof.Machine

/-- A command handed over `txns`, at most `n` of them, each answered as the transport answers next; all but the last
succeeded, and one failed exactly if the reply is `TransportError`. -/
structure Exchange (n : Nat) (s : State) (x : Reply) (txns : List (List Byte × Answer)) : Prop where
  history : x.1.history = s.history ++ txns.map fun y => .transaction y.1 y.2
  length_le : txns.length ≤ n
  txCount : x.1.txCount = s.txCount + txns.length
  answers : x.1.answers = s.answers.drop txns.length
  inputs : x.1.inputs = s.inputs
  answered : ∀ j y, txns[j]? = some y → y.2 = s.answerAt j
  success : ∀ y ∈ txns.dropLast, y.2 = .success
  failed_iff : (∃ y ∈ txns, y.2 = .transportError) ↔ x.2 = .error .transportError

/-- A command that ends without a transaction. -/
theorem Exchange.none (n : Nat) (s : State) {r : Response} (hr : r ≠ .error .transportError) :
    Exchange n s (s, r) [] := by
  constructor <;> simp [hr]

/-- A transaction that the transport fails is the last one. -/
theorem Exchange.failed {s : State} (n c : Nat) (a d : Byte) (ha : s.answerAt 0 = .transportError) :
    Exchange (n + 1) s ((s.buildTxn c a d).transmit, .error .transportError)
      [(txnBytes s.chips c a d, .transportError)] := by
  constructor <;> simp [ha, List.getElem?_singleton]

/-- A transaction that succeeds comes before the rest of the exchange. -/
theorem Exchange.cons {n : Nat} {s : State} {x : Reply} {txns : List (List Byte × Answer)} {c : Nat} {a d : Byte}
    (ha : s.answerAt 0 = .success) (h : Exchange n (s.buildTxn c a d).transmit x txns) :
    Exchange (n + 1) s x ((txnBytes s.chips c a d, .success) :: txns) where
  history := by simp [h.history, ha]
  length_le := Nat.succ_le_succ h.length_le
  txCount := by simpa [Nat.add_assoc, Nat.add_comm] using h.txCount
  answers := by simpa using h.answers
  inputs := h.inputs
  answered j y hy := by
    cases j with
    | zero => exact Option.some.inj hy ▸ ha.symm
    | succ j => exact (h.answered j y hy).trans ((oneTransmit_sent s c a d).answerAt j)
  success y hy := by
    cases txns with
    | nil => cases hy
    | cons z zs =>
      rcases List.mem_cons.1 hy with rfl | hy
      · rfl
      · exact h.success y hy
  failed_iff := by simpa using h.failed_iff

/-- The register writes of a command's run are its exchange. -/
theorem CommandRun.exchange {k : Int} {n : Nat} {s : State} {x : Reply} (h : CommandRun k n s x) :
    ∃ txns, Exchange n s x txns := by
  induction h with
  | ends s hr => exact ⟨[], .none _ s hr⟩
  | sets active records _ ih =>
    obtain ⟨txns, h⟩ := ih
    exact ⟨txns, { h with }⟩
  | fails hk hc r v ha => exact ⟨_, .failed _ _ (regAddr r) v ha⟩
  | sends hk hc r v ha _ ih =>
    obtain ⟨txns, h⟩ := ih
    exact ⟨_, .cons ha h⟩

end Sys2Proof.Machine
end

section
/-! SUPPORT. Every way a step can end (R12, R97, R110). -/

namespace Sys2Proof.Machine

/-- How a step ends: with a next state, or with a stop and its cause. -/
inductive StepEnd (s : State) : Host.Outcome State Fault Refusal → Prop where
  | next (t : State) : StepEnd s (.next t)
  | noCommand (hin : s.inputs = []) : StepEnd s (.refused .noCommand)
  | unnamedPacketAddress {k : Nat} {w : Packet} {rest : List Input} (hin : s.inputs = .latch k w :: rest)
      (hw : ∀ r, regAddr r ≠ addrField w) : StepEnd s (.refused .unnamedPacketAddress)
  | packetIsNoCommand {i : Instr} {rest : List Input} (hin : s.inputs = .call i :: rest) (hi : i.isPacket = true) :
      StepEnd s (.refused .packetIsNoCommand)
  | tooManyChipsForWords {w : CmdWord} {rest : List Input} (hin : s.inputs = .cmd w :: rest) (hchips : 256 < s.chips) :
      StepEnd s (.refused .tooManyChipsForWords)
  | noSuchChip {k : Nat} {w : Packet} {rest : List Input} (hin : s.inputs = .latch k w :: rest) (hk : s.chips ≤ k) :
      StepEnd s (.fault .noSuchChip)

/-- No command word decodes to a packet: the two have words of different lengths (R49). -/
theorem isPacket_of_decodeCmd {w : CmdWord} {i : Instr} (h : decodeCmd w = .ok i) : i.isPacket = false := by
  by_contra hp
  obtain ⟨r, d, rfl⟩ := eq_packetInstr_of_isPacket (Bool.of_not_eq_false hp)
  cases (encode_packetInstr r d).symm.trans (encode_of_decodeCmd h)

/-- A packet whose address byte names no register does not decode (R53). -/
theorem decodePkt_eq_error {w : Packet} {e : DecodeError} (h : decodePkt w = .error e) :
    ∀ r, regAddr r ≠ addrField w := by
  rw [← regOf_eq_none_iff]
  unfold decodePkt at h
  split at h
  case h_1 => cases h
  case h_2 hw => exact hw

theorem runCall_packet {i : Instr} {s : State} (h : i.isPacket = true) :
    runCall i s = .refused .packetIsNoCommand := if_pos h

theorem runLatch_error {k : Nat} {w : Packet} {e : DecodeError} {s : State} (h : decodePkt w = .error e) :
    runLatch k w s = .refused .unnamedPacketAddress := by
  rw [runLatch, h]

theorem StepEnd.of_command {i : Instr} (hi : i.isPacket = false) (s t : State) : StepEnd s (exec i t) := by
  obtain ⟨x, hx⟩ := exec_command_responds hi t
  exact hx ▸ .next _

/-- Whatever input is taken, running it ends in one of these ways; a host command never stops. -/
theorem runInput_ends {s u : State} {x : Input} {rest : List Input} (hin : s.inputs = x :: rest)
    (hu : u.chips = s.chips) : StepEnd s (runInput x u) := by
  cases x with
  | cmd w =>
    rw [runInput]
    by_cases hchips : u.chips ≤ 256
    · cases hw : decodeCmd w with
      | ok i => exact runCmd_ok hchips hw ▸ .of_command (isPacket_of_decodeCmd hw) s u
      | error e => exact runCmd_error hchips hw ▸ .next _
    · rw [runCmd_refused (Nat.not_le.1 hchips)]
      exact .tooManyChipsForWords hin (hu ▸ Nat.not_le.1 hchips)
  | call i =>
    rw [runInput]
    cases hi : i.isPacket with
    | true => exact runCall_packet hi ▸ .packetIsNoCommand hin hi
    | false => exact runCall_command hi ▸ .of_command hi s u
  | latch k w =>
    rw [runInput]
    cases hw : decodePkt w with
    | error e => exact runLatch_error hw ▸ .unnamedPacketAddress hin (decodePkt_eq_error hw)
    | ok i =>
      obtain ⟨r, d, -, rfl⟩ := decodePkt_eq_ok hw
      rw [runLatch_ok hw]
      by_cases hk : k < u.chips
      · exact exec_packetInstr_latched r d u hk ▸ .next _
      · rw [exec_packetInstr, latchPacket_fault r d _ (Nat.not_lt.1 hk)]
        exact .noSuchChip hin (hu ▸ Nat.not_lt.1 hk)

theorem step_ends (s : State) : StepEnd s (step s) := by
  cases hin : s.inputs with
  | nil =>
    rw [step, runNext, hin]
    exact .noCommand hin
  | cons x rest =>
    rw [step_of_inputs hin]
    exact runInput_ends hin rfl

end Sys2Proof.Machine
end

section
/-! PROOFS. The statements of 60_exceptions.md: validation failures, their causes and their order, the response of every
command, and the stops of a step. -/

namespace Sys2Proof.Proofs.Exceptions

open Sys2Proof.Machine

/-- Settles O37: each operand that R98 or R99 names fails a check of its command, and no check comes after an effect. -/
theorem failedValidationHasNoEffect : Obligations.FailedValidationHasNoEffect := by
  rintro s i (h | h)
  · exact failsValidation_of_hasInvalidOperand s h
  · exact failsValidation_of_hasOperandOutOfRange s h

/-- Settles O38: of the causes of a validation failure, R16 excludes the active index. -/
theorem validationFailuresHaveOnlyTheirCauses : Obligations.ValidationFailuresHaveOnlyTheirCauses := by
  intro s t i hactive hi he
  constructor
  · intro hlast
    obtain ⟨-, hcause⟩ := exec_validation_failure hi he hlast (by decide)
    cases hcause with
    | invalidOperand h => exact h
  · intro hlast
    obtain ⟨-, hcause⟩ := exec_validation_failure hi he hlast (by decide)
    cases hcause with
    | operandOutOfRange h => exact h
    | activeOutOfRange h => exact absurd hactive (Nat.not_lt.2 h)

/-- Settles O40: a command's run is its exchange with the transport, and after a validation failure the count of
transmits is as before. -/
theorem everyCommandEndsWithOneResponse : Obligations.EveryCommandEndsWithOneResponse := by
  intro s i hi
  obtain ⟨x, hrun, hexec⟩ := exec_command_run hi s
  obtain ⟨txns, h⟩ := hrun.exchange
  have hnone (e : ErrorKind) (hx : x.2 = .error e) (he : e ≠ .transportError) : txns = [] := by
    have hlast : (x.1.answered x.2).history.getLast? = some (.response (.error e)) := hx ▸ List.getLast?_concat
    obtain ⟨hstate, -⟩ := exec_validation_failure hi hexec hlast he
    have hcount : x.1.txCount = s.txCount := (congrArg State.txCount hstate :)
    exact List.length_eq_zero_iff.1 (by have := h.txCount; omega)
  refine ⟨_, txns, x.2, hexec, congrArg (· ++ _) h.history, h.length_le, h.txCount, h.answers, h.inputs, ?_,
    h.answered, h.success, h.failed_iff⟩
  rintro (hx | hx)
  · exact hnone _ hx (by decide)
  · exact hnone _ hx (by decide)

/-- Settles O51: of the ways a step can end, each stop carries its cause. -/
theorem stepStopsOnlyByName : Obligations.StepStopsOnlyByName := by
  intro s
  have hend := step_ends s
  constructor
  · intro f hf
    cases hf ▸ hend with
    | noSuchChip hin hk => exact ⟨_, _, _, hin, hk⟩
  · intro r hr
    cases hr ▸ hend with
    | noCommand hin => exact .inl ⟨rfl, hin⟩
    | unnamedPacketAddress hin hw => exact .inr (.inl ⟨rfl, _, _, _, hin, hw⟩)
    | packetIsNoCommand hin hi => exact .inr (.inr (.inl ⟨rfl, _, _, hin, hi⟩))
    | tooManyChipsForWords hin hchips => exact .inr (.inr (.inr ⟨rfl, hchips, _, _, hin⟩))

/-- Settles O39: of two checks the first in the signature decides, whatever the second operand is. -/
theorem firstFailingOperandIsReported : Obligations.FirstFailingOperandIsReported := fun s =>
  ⟨fun _ segs hn => exec_setseg_outOfRange s hn segs, fun _ sym dp hn => exec_setsym_outOfRange s hn sym dp,
    exec_wrregt_unknown s, fun n _ h => exec_setseg_invalidArgument s n h,
    fun n _ dp h => exec_setsym_invalidArgument s n h dp⟩

end Sys2Proof.Proofs.Exceptions
end
